-- ==== Sys2Proof/Word.lean ====
section
/-! DEFINITION. The value types of the hex-encoder block: a byte of data memory, a 64-bit host register word,
a 4-bit nibble. Every value is unsigned (00_scope.md R9). -/

namespace Sys2Proof

/-- A byte: the unit of data memory (20_memory.md R45). -/
abbrev Byte := BitVec 8

/-- A 64-bit host register word (10_state.md R20). -/
abbrev Word := BitVec 64

/-- A nibble, one half of a byte (00_scope.md section 6). -/
abbrev Nibble := BitVec 4

end Sys2Proof
end

