-- ==== Sys2Proof/Syntax.lean ====
section
/-! DEFINITION. The operations of the block: one constructor per row of spec/opcode_table.json, the HOST rows
(register accesses, 44_entry_and_host.md R140 to R157) and the PHASE rows (engine steps, 30_encoding.md R66). -/

namespace Sys2Proof

/-- One operation. A host write carries its 64-bit `wdata`; a reserved-index row carries the index IDX it was
reached by (30_encoding.md R60); an engine step has no encoded operand (30_encoding.md R66). -/
inductive Instr where
  /-- R140. -/
  | rdCtrl
  /-- R141; START is `wdata[0] = 1` while idle (R131). -/
  | wrCtrl (wdata : Word)
  /-- R142. -/
  | rdStatus
  /-- R143. -/
  | wrStatus (wdata : Word)
  /-- R144. -/
  | rdSrc
  /-- R145. -/
  | wrSrc (wdata : Word)
  /-- R146. -/
  | rdDst
  /-- R147. -/
  | wrDst (wdata : Word)
  /-- R148. -/
  | rdLen
  /-- R149. -/
  | wrLen (wdata : Word)
  /-- R150. -/
  | rdSrcEnd
  /-- R151. -/
  | wrSrcEnd (wdata : Word)
  /-- R152. -/
  | rdDstEnd
  /-- R153. -/
  | wrDstEnd (wdata : Word)
  /-- R154. -/
  | rdConfig
  /-- R155. -/
  | wrConfig (wdata : Word)
  /-- R156, the row of IDX 8 to 15. -/
  | rdRsvd8 (idx : BitVec 5)
  /-- R156, the row of IDX 16 to 31. -/
  | rdRsvd16 (idx : BitVec 5)
  /-- R157, the row of IDX 8 to 15. -/
  | wrRsvd8 (idx : BitVec 5) (wdata : Word)
  /-- R157, the row of IDX 16 to 31. -/
  | wrRsvd16 (idx : BitVec 5) (wdata : Word)
  /-- PHASE 0, R133. -/
  | idle
  /-- PHASE 1, R125. -/
  | fast1
  /-- PHASE 2, R100. -/
  | bulk32
  /-- PHASE 3, R101. -/
  | bulk16
  /-- PHASE 4, R102. -/
  | bulk8
  /-- PHASE 5, R115. -/
  | rem
  /-- PHASE 6, R132. -/
  | finish
  /-- PHASE 7, reserved, R67. -/
  | rsvd7
deriving DecidableEq, Repr

end Sys2Proof
end

