-- ==== Sys2Proof/WellFormed.lean ====
section
/-! DEFINITION. Which operations are well formed: a reserved-index operation carries an index of its own row
(30_encoding.md R69). No other operand of the block has a value that its field does not admit. -/

namespace Sys2Proof

/-- The operands stay inside the ranges their row admits. -/
def Instr.wellFormed : Instr → Bool
  | .rdCtrl => true
  | .wrCtrl _ => true
  | .rdStatus => true
  | .wrStatus _ => true
  | .rdSrc => true
  | .wrSrc _ => true
  | .rdDst => true
  | .wrDst _ => true
  | .rdLen => true
  | .wrLen _ => true
  | .rdSrcEnd => true
  | .wrSrcEnd _ => true
  | .rdDstEnd => true
  | .wrDstEnd _ => true
  | .rdConfig => true
  | .wrConfig _ => true
  | .rdRsvd8 idx => decide (8 ≤ idx.toNat ∧ idx.toNat ≤ 15)
  | .rdRsvd16 idx => decide (16 ≤ idx.toNat)
  | .wrRsvd8 idx _ => decide (8 ≤ idx.toNat ∧ idx.toNat ≤ 15)
  | .wrRsvd16 idx _ => decide (16 ≤ idx.toNat)
  | .idle => true
  | .fast1 => true
  | .bulk32 => true
  | .bulk16 => true
  | .bulk8 => true
  | .rem => true
  | .finish => true
  | .rsvd7 => true

end Sys2Proof
end

