-- ==== Sys2Proof/Decode.lean ====
section
/-! DEFINITION. The decoder of both encoding spaces (30_encoding.md R60, R66, R69), total and rejecting by name
what is no code of a space, the decoder of an access to the register window (R60, R61), and the encoder. -/

namespace Sys2Proof

/-- Why something is no operation of the block. -/
inductive DecodeError where
  /-- A number of more than 6 bits is no host access descriptor (R60). -/
  | notADescriptor (w : Nat)
  /-- A number of more than 3 bits is no PHASE code (R66). -/
  | notAPhaseCode (w : Nat)
  /-- A narrow, wide or misaligned access, or one outside the register window (R61). -/
  | badRegisterAccess (addr width : Nat)
deriving DecidableEq, Repr

/-- The encoding of one operation: a HOST descriptor with its data word (R60, R70), or a PHASE code (R66). -/
inductive Code where
  | host (desc : BitVec 6) (wdata : Word)
  | phase (code : BitVec 3)
deriving DecidableEq, Repr

/-- The two encoding spaces. -/
inductive Space where
  | host
  | phase
deriving DecidableEq, Repr

/-- Bit W of a descriptor: 1 is a write (R60). -/
def descWrite (desc : BitVec 6) : Bool := desc.getLsbD 5

/-- Field IDX of a descriptor (R60). -/
def descIdx (desc : BitVec 6) : BitVec 5 := desc.extractLsb' 0 5

/-- The descriptor {W, IDX} (R60). -/
def mkDesc (write : Bool) (idx : BitVec 5) : BitVec 6 := BitVec.ofBool write ++ idx

/-- The read that register index `idx` selects (R62). -/
def decodeRead (idx : BitVec 5) : Instr :=
  match idx.toNat with
  | 0 => .rdCtrl
  | 1 => .rdStatus
  | 2 => .rdSrc
  | 3 => .rdDst
  | 4 => .rdLen
  | 5 => .rdSrcEnd
  | 6 => .rdDstEnd
  | 7 => .rdConfig
  | k => if k < 16 then .rdRsvd8 idx else .rdRsvd16 idx

/-- The write that register index `idx` selects (R62). -/
def decodeWrite (idx : BitVec 5) (wdata : Word) : Instr :=
  match idx.toNat with
  | 0 => .wrCtrl wdata
  | 1 => .wrStatus wdata
  | 2 => .wrSrc wdata
  | 3 => .wrDst wdata
  | 4 => .wrLen wdata
  | 5 => .wrSrcEnd wdata
  | 6 => .wrDstEnd wdata
  | 7 => .wrConfig wdata
  | k => if k < 16 then .wrRsvd8 idx wdata else .wrRsvd16 idx wdata

/-- The operation of a host descriptor; every value selects one (R60). A read takes no data word. -/
def decodeHost (desc : BitVec 6) (wdata : Word) : Instr :=
  if descWrite desc then decodeWrite (descIdx desc) wdata else decodeRead (descIdx desc)

/-- The engine step of a PHASE code (R66, R67). -/
def decodePhase (code : BitVec 3) : Instr :=
  match code.toNat with
  | 0 => .idle
  | 1 => .fast1
  | 2 => .bulk32
  | 3 => .bulk16
  | 4 => .bulk8
  | 5 => .rem
  | 6 => .finish
  | _ => .rsvd7

/-- The operation of a code. -/
def decode : Code → Instr
  | .host desc wdata => decodeHost desc wdata
  | .phase code => decodePhase code

/-- The operation whose code in the space `sp` is the number `w` (with the data word `wdata`, for a host write),
or why there is none. -/
def decodeWord (sp : Space) (w : Nat) (wdata : Word) : Except DecodeError Instr :=
  match sp with
  | .host => if w < 64 then .ok (decodeHost (BitVec.ofNat 6 w) wdata) else .error (.notADescriptor w)
  | .phase => if w < 8 then .ok (decodePhase (BitVec.ofNat 3 w)) else .error (.notAPhaseCode w)

/-- The register index an access of `width` bytes at byte address `addr` reaches: it must be 8 bytes wide,
8-byte aligned and inside the 256-byte window at REG_BASE (R60, R61). -/
def decodeWindow (regBase addr width : Nat) : Except DecodeError (BitVec 5) :=
  if width = 8 ∧ addr % 8 = 0 ∧ regBase ≤ addr ∧ addr + 8 ≤ regBase + 256 then
    .ok (BitVec.ofNat 5 ((addr - regBase) / 8))
  else .error (.badRegisterAccess addr width)

/-- The code of an operation (R69). A read has no data word: it is written 0. -/
def encode : Instr → Code
  | .rdCtrl => .host 0x00#6 0
  | .wrCtrl wdata => .host 0x20#6 wdata
  | .rdStatus => .host 0x01#6 0
  | .wrStatus wdata => .host 0x21#6 wdata
  | .rdSrc => .host 0x02#6 0
  | .wrSrc wdata => .host 0x22#6 wdata
  | .rdDst => .host 0x03#6 0
  | .wrDst wdata => .host 0x23#6 wdata
  | .rdLen => .host 0x04#6 0
  | .wrLen wdata => .host 0x24#6 wdata
  | .rdSrcEnd => .host 0x05#6 0
  | .wrSrcEnd wdata => .host 0x25#6 wdata
  | .rdDstEnd => .host 0x06#6 0
  | .wrDstEnd wdata => .host 0x26#6 wdata
  | .rdConfig => .host 0x07#6 0
  | .wrConfig wdata => .host 0x27#6 wdata
  | .rdRsvd8 idx => .host (mkDesc false idx) 0
  | .rdRsvd16 idx => .host (mkDesc false idx) 0
  | .wrRsvd8 idx wdata => .host (mkDesc true idx) wdata
  | .wrRsvd16 idx wdata => .host (mkDesc true idx) wdata
  | .idle => .phase 0b000#3
  | .fast1 => .phase 0b001#3
  | .bulk32 => .phase 0b010#3
  | .bulk16 => .phase 0b011#3
  | .bulk8 => .phase 0b100#3
  | .rem => .phase 0b101#3
  | .finish => .phase 0b110#3
  | .rsvd7 => .phase 0b111#3

/-- One row of the opcode map: its space, match and mask (R69). -/
structure Row where
  space : Space
  value : Nat
  mask : Nat
deriving DecidableEq, Repr

/-- The row of the opcode map an operation belongs to, as R69 prints it. -/
def rowOf : Instr → Row
  | .rdCtrl => ⟨.host, 0x00, 0x3F⟩
  | .wrCtrl _ => ⟨.host, 0x20, 0x3F⟩
  | .rdStatus => ⟨.host, 0x01, 0x3F⟩
  | .wrStatus _ => ⟨.host, 0x21, 0x3F⟩
  | .rdSrc => ⟨.host, 0x02, 0x3F⟩
  | .wrSrc _ => ⟨.host, 0x22, 0x3F⟩
  | .rdDst => ⟨.host, 0x03, 0x3F⟩
  | .wrDst _ => ⟨.host, 0x23, 0x3F⟩
  | .rdLen => ⟨.host, 0x04, 0x3F⟩
  | .wrLen _ => ⟨.host, 0x24, 0x3F⟩
  | .rdSrcEnd => ⟨.host, 0x05, 0x3F⟩
  | .wrSrcEnd _ => ⟨.host, 0x25, 0x3F⟩
  | .rdDstEnd => ⟨.host, 0x06, 0x3F⟩
  | .wrDstEnd _ => ⟨.host, 0x26, 0x3F⟩
  | .rdConfig => ⟨.host, 0x07, 0x3F⟩
  | .wrConfig _ => ⟨.host, 0x27, 0x3F⟩
  | .rdRsvd8 _ => ⟨.host, 0x08, 0x38⟩
  | .rdRsvd16 _ => ⟨.host, 0x10, 0x30⟩
  | .wrRsvd8 _ _ => ⟨.host, 0x28, 0x38⟩
  | .wrRsvd16 _ _ => ⟨.host, 0x30, 0x30⟩
  | .idle => ⟨.phase, 0x0, 0x7⟩
  | .fast1 => ⟨.phase, 0x1, 0x7⟩
  | .bulk32 => ⟨.phase, 0x2, 0x7⟩
  | .bulk16 => ⟨.phase, 0x3, 0x7⟩
  | .bulk8 => ⟨.phase, 0x4, 0x7⟩
  | .rem => ⟨.phase, 0x5, 0x7⟩
  | .finish => ⟨.phase, 0x6, 0x7⟩
  | .rsvd7 => ⟨.phase, 0x7, 0x7⟩

/-- The 20 rows of the HOST space, in the table's order (R69). -/
def hostRows : List Row :=
  [⟨.host, 0x00, 0x3F⟩, ⟨.host, 0x20, 0x3F⟩, ⟨.host, 0x01, 0x3F⟩, ⟨.host, 0x21, 0x3F⟩, ⟨.host, 0x02, 0x3F⟩,
   ⟨.host, 0x22, 0x3F⟩, ⟨.host, 0x03, 0x3F⟩, ⟨.host, 0x23, 0x3F⟩, ⟨.host, 0x04, 0x3F⟩, ⟨.host, 0x24, 0x3F⟩] ++
  [⟨.host, 0x05, 0x3F⟩, ⟨.host, 0x25, 0x3F⟩, ⟨.host, 0x06, 0x3F⟩, ⟨.host, 0x26, 0x3F⟩, ⟨.host, 0x07, 0x3F⟩,
   ⟨.host, 0x27, 0x3F⟩, ⟨.host, 0x08, 0x38⟩, ⟨.host, 0x10, 0x30⟩, ⟨.host, 0x28, 0x38⟩, ⟨.host, 0x30, 0x30⟩]

/-- The 8 rows of the PHASE space (R69). -/
def phaseRows : List Row :=
  [⟨.phase, 0, 7⟩, ⟨.phase, 1, 7⟩, ⟨.phase, 2, 7⟩, ⟨.phase, 3, 7⟩, ⟨.phase, 4, 7⟩, ⟨.phase, 5, 7⟩, ⟨.phase, 6, 7⟩,
   ⟨.phase, 7, 7⟩]

/-- A code value matches a row: value and mask give the row's match. -/
def Row.accepts (r : Row) (w : Nat) : Bool := w &&& r.mask == r.value

/-- The code value an operation's row is matched on: the descriptor or the PHASE code. -/
def Code.value : Code → Nat
  | .host desc _ => desc.toNat
  | .phase code => code.toNat

/-- The space a code belongs to. -/
def Code.space : Code → Space
  | .host _ _ => .host
  | .phase _ => .phase

/-- The space a table word of `nbits` bits is read in. DESIGN CHOICE (log 1): the two spaces use the same small
numbers, and only the width tells them apart: up to 3 bits is a PHASE code, anything wider a HOST descriptor. -/
def tableSpace (nbits : Nat) : Space := if nbits ≤ 3 then .phase else .host

/-- The operation the decoder reads from a word of the opcode table (a host write with a data word of zeros). -/
def decodeTableWord (nbits w : Nat) : Option Instr :=
  match decodeWord (tableSpace nbits) w 0 with
  | .ok i => some i
  | .error _ => none

end Sys2Proof
end

