-- ==== Sys2Proof/Config.lean ====
section
/-! DEFINITION. The parameters of the block (00_scope.md R6), the platform's memory map (20_memory.md R47), and
the free values of the model. The parameters are plain data and stand in State, so that a claim about every state
is a claim about every configuration. -/

namespace Sys2Proof

/-- The parameter ADDR_W: the width of a memory-port address (00_scope.md R6). -/
inductive AddrWidth where
  | w32
  | w64
deriving DecidableEq, Repr

/-- The parameter MAX_BATCH: the largest batch the block has (00_scope.md R6, 41_bulk.md R96). -/
inductive MaxBatch where
  | b16
  | b32
deriving DecidableEq, Repr

/-- The parameter TABLE_MODE: how the ROM contents come to exist (00_scope.md R6, 40_tables.md R84). -/
inductive TableMode where
  | rom
  | synth
deriving DecidableEq, Repr

/-- A range of data memory that the platform makes readable, writable or both (20_memory.md R47). -/
structure Region where
  base : Nat
  size : Nat
  canRead : Bool
  canWrite : Bool
deriving DecidableEq, Repr

/-- What an instance of the block is built and placed with. No step changes it. -/
structure Config where
  /-- ADDR_W. -/
  addrW : AddrWidth
  /-- MAX_BATCH. -/
  maxBatch : MaxBatch
  /-- TABLE_MODE. -/
  tableMode : TableMode
  /-- REG_BASE, a multiple of 256. -/
  regBase : Nat
  /-- The platform's map: an address in no region is neither readable nor writable. -/
  memMap : List Region
deriving DecidableEq, Repr

/-- The configuration State.reset has: the spec's defaults MAX_BATCH = 32 and TABLE_MODE = ROM (00_scope.md R6).
DESIGN CHOICE (log 3): ADDR_W = 64, REG_BASE = 0 and a memory that admits every access; the spec leaves the
three open. -/
def Config.standard : Config :=
  { addrW := .w64, maxBatch := .b32, tableMode := .rom, regBase := 0,
    memMap := [{ base := 0, size := 2 ^ 64, canRead := true, canWrite := true }] }

/-- Free value: SCALAR between jobs, so after a FINISH step, and after a modelled reset (10_state.md R33,
93_implementation_defined.md I11; log 5). The argument is the state's draw counter. -/
opaque Config.freeScalar : Nat → BitVec 64

/-- Free value: CHARS between jobs and after a modelled reset (10_state.md R33, 93_implementation_defined.md I11;
log 5). -/
opaque Config.freeChars : Nat → BitVec 128

/-- Free value: whether byte `i` of an abandoned job's destination holds the job's output byte, rather than its
value before the job (70_reset_and_hazards.md R183, 93_implementation_defined.md I8; log 6). The arguments are
the draw counter and `i`. -/
opaque Config.abandonedByteNew : Nat → Nat → Bool

/-- Free value: what a host read that a reset lost leaves in the host's variable (60_exceptions.md R166 (c);
log 20). -/
opaque Config.lostRead : Nat → BitVec 64

end Sys2Proof
end

