-- ==== Sys2Proof/Machine/State.lean ====
section
/-! DEFINITION. The state of the machine: the block's registers (10_state.md R20), data memory, the parameters,
the model-only state the spec lists (10_state.md R36), and the HOST agent with the order of turns (00_scope.md R8).
Plain data only. -/

namespace Sys2Proof.Machine

/-- Data memory: the bytes that differ from what an unlisted address reads as, addresses strictly rising. -/
abbrev Memory := List Host.Cell

/-- The PHASE register's eight codes by name (10_state.md R22). -/
inductive Phase where
  | idle
  | fast1
  | bulk32
  | bulk16
  | bulk8
  | rem
  | finish
  | rsvd7
deriving DecidableEq, Repr

/-- The kind of a host memory access, recorded by UB(RACE) (60_exceptions.md R160). -/
inductive AccessKind where
  | read
  | write
deriving DecidableEq, Repr

/-- The closed list of UB reasons with the data each records (60_exceptions.md R160). -/
inductive UB where
  /-- UB(PRECOND_WRAP), raised by START: (SRC, DST, LEN). -/
  | precondWrap (src dst len : Word)
  /-- UB(PRECOND_OVERLAP), raised by START: (SRC, DST, LEN). -/
  | precondOverlap (src dst len : Word)
  /-- UB(RACE), raised by a host memory access to a running job's buffers: the address and the kind. -/
  | race (addr : Nat) (kind : AccessKind)
deriving DecidableEq, Repr

/-- The running job (10_state.md R36 (c)): its arguments, and the data memory at its start, which 44_entry_and_host.md
R130 (a) and 70_reset_and_hazards.md R183 speak of. -/
structure Job where
  src : Word
  dst : Word
  len : Word
  memAtStart : Memory
deriving DecidableEq, Repr

/-- The memory byte events of one engine step (20_memory.md R40, 10_state.md R36 (b)): the step, its read events
and its write events. All the reads come before all the writes (R49 (b)); the place of an event inside either list
says nothing about order (R49 (c); log 11). -/
structure StepEvents where
  phase : Phase
  reads : List Host.Cell
  writes : List Host.Cell
deriving DecidableEq, Repr

/-- The value operand of a host write: a literal or an earlier read's name t<k> (30_encoding.md R71). -/
inductive HostVal where
  | lit (v : Word)
  | temp (k : Nat)
deriving DecidableEq, Repr

/-- One line of a host program (30_encoding.md R71, R72; 70_reset_and_hazards.md R187). `dest` names a read result
t<k>. -/
inductive HostOp where
  /-- A register access by its descriptor (R60). -/
  | reg (desc : BitVec 6) (wdata : HostVal) (dest : Option Nat)
  /-- A read of `width` bytes at a byte address of the register window (R60, R61). -/
  | windowRead (addr width : Nat) (dest : Option Nat)
  /-- A write of these bytes, the first at byte address `addr` of the register window (R60, R61, R42). -/
  | windowWrite (addr : Nat) (data : List Byte)
  /-- WAIT_DONE: read STATUS until bit 1 is 1 (R72). -/
  | waitDone (dest : Option Nat)
  /-- WAIT_IDLE: read STATUS until bit 0 is 0 (R72). -/
  | waitIdle (dest : Option Nat)
  /-- The host reads a byte of data memory (R8, R187), at any address (log 23). -/
  | memRead (addr : Nat) (dest : Option Nat)
  /-- The host writes a byte of data memory (R8, R187), at any address (log 23). -/
  | memWrite (addr : Nat) (data : Byte)
deriving DecidableEq, Repr

/-- Who moves (00_scope.md R8, 70_reset_and_hazards.md R180). -/
inductive Turn where
  /-- The HOST performs its next line. -/
  | host
  /-- The ENGINE performs the step PHASE selects. -/
  | engine
  /-- The block is reset. -/
  | reset
  /-- The block is reset and the register access the host makes in the same cycle is lost (60_exceptions.md
  R166 (c)). -/
  | resetLost
deriving DecidableEq, Repr

/-- The state of the machine. -/
structure State where
  /-- The parameters and the platform's map (00_scope.md R6); constant. -/
  config : Config
  /-- SRC (10_state.md R25). -/
  src : Word
  /-- DST (10_state.md R26). -/
  dst : Word
  /-- LEN (10_state.md R27). -/
  len : Word
  /-- SRC_END (10_state.md R28). -/
  srcEnd : Word
  /-- DST_END (10_state.md R29). -/
  dstEnd : Word
  /-- STATUS.DONE (10_state.md R24); BUSY is `phase ≠ idle` and not storage. -/
  done : Bool
  /-- PHASE (10_state.md R22). -/
  phase : Phase
  /-- RS, the read cursor (10_state.md R32). -/
  rs : Word
  /-- WD, the write cursor (10_state.md R32). -/
  wd : Word
  /-- REM, the remaining input length (10_state.md R32). -/
  rem : Word
  /-- SCALAR (10_state.md R33). -/
  scalar : BitVec 64
  /-- CHARS (10_state.md R33). -/
  chars : BitVec 128
  /-- Data memory (10_state.md R35 (a)). -/
  mem : Memory
  /-- FAULT (10_state.md R36 (a)). -/
  fault : Option UB
  /-- HISTORY (10_state.md R36 (b)), oldest step first. -/
  history : List StepEvents
  /-- JOB (10_state.md R36 (c)). -/
  job : Option Job
  /-- The read data the register port returned last (30_encoding.md R60; the model's own field, log 10). -/
  rdata : Word
  /-- The host program's lines not yet executed (30_encoding.md R71; the model's own field, log 10). -/
  hostProgram : List HostOp
  /-- The host's named read results, newest first (30_encoding.md R71; the model's own field, log 10). -/
  temps : List (Nat × Word)
  /-- Who moves next, and after that (00_scope.md R8; the model's own field, log 9). -/
  turns : List Turn
  /-- How many resets and FINISH steps have drawn free values (the model's own field, log 5). -/
  draws : Nat
deriving DecidableEq, Repr

/-- Why the machine stops. -/
inductive Fault where
  /-- FAULT is set, so no agent has an enabled step (60_exceptions.md R160). Answered by every meaning and by the
  host's and the engine's turn. Safe: the block itself goes on in some unspecified way. -/
  | ub (r : UB)
deriving DecidableEq, Repr

/-- Why an operation has no meaning. -/
inductive Refusal where
  /-- An instruction without a meaning yet; raised by no meaning. Safe. -/
  | notModelled (mnemonic : String)
  /-- PHASE holds the reserved code 7 (30_encoding.md R67); raised by the RSVD7 step. Safe: unreachable. -/
  | reservedPhase
  /-- A guard of 41_bulk.md R98 is false; raised by the BULK32, BULK16, BULK8, REM and FINISH steps. Safe:
  unreachable. -/
  | guardFalse (p : Phase)
  /-- An engine step other than the one PHASE selects (30_encoding.md R66; log 15); raised by every engine meaning,
  never by `step`. Safe. -/
  | notEnabled (p : Phase)
  /-- A narrow, wide or misaligned register access, or one outside the window (30_encoding.md R61); raised by the
  host's window accesses. Safe. -/
  | badRegisterAccess (addr width : Nat)
  /-- A host write of a name t<k> that no earlier line read (30_encoding.md R71; log 21); raised by the host's
  turn. Safe. -/
  | unboundTemp (k : Nat)
  /-- The platform does not admit the host's own memory access (20_memory.md R47; log 19); raised by the host's
  memory lines. Safe. -/
  | hostMemory (addr : Nat) (kind : AccessKind)
deriving DecidableEq, Repr

/-- The machine right after reset with the configuration `c` (70_reset_and_hazards.md R181): every register 0, PHASE
IDLE. DESIGN CHOICE: SCALAR and CHARS 0 (log 5), memory with nothing listed (log 4), no host program (log 2), and the
model's own fields empty (log 9, log 10). -/
def State.resetWith (c : Config) : State :=
  { config := c, src := 0, dst := 0, len := 0, srcEnd := 0, dstEnd := 0, done := false, phase := .idle,
    rs := 0, wd := 0, rem := 0, scalar := 0, chars := 0, mem := [], fault := none, history := [], job := none,
    rdata := 0, hostProgram := [], temps := [], turns := [], draws := 0 }

/-- The machine right after reset, in the standard configuration (log 3). -/
def State.reset : State := State.resetWith Config.standard

end Sys2Proof.Machine
end

