-- ==== Sys2Proof/Machine/Ops.lean ====
section
/-! DEFINITION. The named operations over memory and registers: data memory, the memory port, cursor arithmetic,
raising a UB reason (the block's only exceptional entry), the guards, START, FINISH, a data step and the reset. -/

namespace Sys2Proof.Machine

/-! ## Data memory -/

/-- What a byte that nothing has written reads as. DESIGN CHOICE (log 4). -/
def unlistedByte : Byte := 0x00

/-- The byte memory holds at an address (20_memory.md R52). -/
def Memory.read : Memory → Nat → Byte
  | [], _ => unlistedByte
  | (a', b') :: m, a => if a = a' then b' else Memory.read m a

/-- Memory with the byte at address `a` set to `b`, in canonical form. -/
def Memory.write : Memory → Nat → Byte → Memory
  | [], a, b => if b = unlistedByte then [] else [(a, b)]
  | (a', b') :: m, a, b =>
    if a < a' then (if b = unlistedByte then (a', b') :: m else (a, b) :: (a', b') :: m)
    else if a = a' then (if b = unlistedByte then m else (a, b) :: m)
    else (a', b') :: Memory.write m a b

/-- The canonical form, for a list whose addresses are all at least `lo`. -/
def Memory.wfFrom : Nat → Memory → Bool
  | _, [] => true
  | lo, (a, b) :: m => decide (lo ≤ a) && decide (b ≠ unlistedByte) && Memory.wfFrom (a + 1) m

/-- The canonical form: addresses strictly rising, no entry equal to what an unlisted address reads as. -/
def Memory.wf (m : Memory) : Bool := Memory.wfFrom 0 m

/-- Memory after a list of write events (20_memory.md R40). -/
def Memory.store : Memory → List Host.Cell → Memory
  | m, [] => m
  | m, (a, b) :: cells => Memory.store (m.write a b) cells

/-! ## The memory port -/

/-- The number of address bits (00_scope.md R6). -/
def addrBits (c : Config) : Nat :=
  match c.addrW with
  | .w32 => 32
  | .w64 => 64

/-- A value kept to ADDR_W bits and zero-extended to 64 (10_state.md R31). -/
def truncAddr (c : Config) (v : Word) : Word := BitVec.ofNat 64 (v.toNat % 2 ^ addrBits c)

/-- The memory address `k` bytes after a cursor, modulo 2^ADDR_W (00_scope.md R9, 41_bulk.md R99). -/
def portAddr (c : Config) (a : Word) (k : Nat) : Nat := (a.toNat + k) % 2 ^ addrBits c

/-- A cursor moved on by `k` bytes, modulo 2^ADDR_W (41_bulk.md R99). -/
def advance (c : Config) (a : Word) (k : Nat) : Word := BitVec.ofNat 64 (portAddr c a k)

/-- The region holds the address. -/
def regionHolds (r : Region) (a : Nat) : Bool := decide (r.base ≤ a ∧ a < r.base + r.size)

/-- The platform admits a read event at the address (20_memory.md R40, R47). -/
def readable (c : Config) (a : Nat) : Bool :=
  decide (a < 2 ^ addrBits c) && c.memMap.any fun r => r.canRead && regionHolds r a

/-- The platform admits a write event at the address (20_memory.md R40, R47). -/
def writable (c : Config) (a : Nat) : Bool :=
  decide (a < 2 ^ addrBits c) && c.memMap.any fun r => r.canWrite && regionHolds r a

/-- The platform admits read events at the `n` bytes from cursor `a`. -/
def readsAdmitted (c : Config) (a : Word) (n : Nat) : Bool :=
  (List.range n).all fun k => readable c (portAddr c a k)

/-- The platform admits write events at the `n` bytes from cursor `a`. -/
def writesAdmitted (c : Config) (a : Word) (n : Nat) : Bool :=
  (List.range n).all fun k => writable c (portAddr c a k)

/-- The read events at the `n` bytes from cursor `a`, with the bytes read (20_memory.md R40). -/
def readCells (c : Config) (m : Memory) (a : Word) (n : Nat) : List Host.Cell :=
  (List.range n).map fun k => (portAddr c a k, m.read (portAddr c a k))

/-- The bytes `MemRead` returns for the `n` addresses from cursor `a` (00_scope.md R10). -/
def readBytes (c : Config) (m : Memory) (a : Word) (n : Nat) : List Byte :=
  (List.range n).map fun k => m.read (portAddr c a k)

/-- The write events that put the bytes at cursor `a`, the first `j` bytes after it (20_memory.md R40). -/
def writeCells (c : Config) (a : Word) : Nat → List Byte → List Host.Cell
  | _, [] => []
  | j, y :: ys => (portAddr c a j, y) :: writeCells c a (j + 1) ys

/-! ## Packed values -/

/-- The little-endian value of a byte string, the byte at the lowest address in the lowest bits (20_memory.md
R42). -/
def packNat : List Byte → Nat
  | [] => 0
  | b :: bs => b.toNat + 256 * packNat bs

/-- A byte string packed into `w` bits (20_memory.md R42). -/
def pack (w : Nat) (bs : List Byte) : BitVec w := BitVec.ofNat w (packNat bs)

/-- Byte `k` of a packed value, bits 8k+7 to 8k (10_state.md R33). -/
def byteOf {w : Nat} (v : BitVec w) (k : Nat) : Byte := v.extractLsb' (8 * k) 8

/-- The first `n` bytes of a packed value, in address order. -/
def bytesOf {w : Nat} (v : BitVec w) (n : Nat) : List Byte := (List.range n).map fun k => byteOf v k

/-! ## The sequencer -/

/-- The PHASE code of a phase (10_state.md R22). -/
def Phase.code : Phase → BitVec 3
  | .idle => 0
  | .fast1 => 1
  | .bulk32 => 2
  | .bulk16 => 3
  | .bulk8 => 4
  | .rem => 5
  | .finish => 6
  | .rsvd7 => 7

/-- The phase of a PHASE code (10_state.md R22). -/
def Phase.ofCode (code : BitVec 3) : Phase :=
  match code.toNat with
  | 0 => .idle
  | 1 => .fast1
  | 2 => .bulk32
  | 3 => .bulk16
  | 4 => .bulk8
  | 5 => .rem
  | 6 => .finish
  | _ => .rsvd7

/-- The batch multiplexer (41_bulk.md R97). -/
def nextPhase (c : Config) (r : Nat) : Phase :=
  if c.maxBatch = .b32 ∧ 32 ≤ r then .bulk32
  else if 16 ≤ r then .bulk16
  else if 8 ≤ r then .bulk8
  else if 1 ≤ r then .rem
  else .finish

/-- The entry selector (44_entry_and_host.md R134). -/
def entryPhase (c : Config) (n : Nat) : Phase :=
  if n = 0 then .finish
  else if n = 1 then .fast1
  else nextPhase c n

/-- The guard that 41_bulk.md R98 gives a phase. -/
def phaseGuard (s : State) : Phase → Bool
  | .bulk32 => decide (32 ≤ s.rem.toNat) && decide (s.config.maxBatch = .b32)
  | .bulk16 => decide (16 ≤ s.rem.toNat)
  | .bulk8 => decide (8 ≤ s.rem.toNat)
  | .rem => decide (1 ≤ s.rem.toNat ∧ s.rem.toNat ≤ 7)
  | .finish => decide (s.rem.toNat = 0)
  | .idle => true
  | .fast1 => true
  | .rsvd7 => true

/-- How many bytes the step a phase selects consumes (30_encoding.md R66). -/
def phaseBytes (s : State) : Phase → Nat
  | .idle => 0
  | .fast1 => 1
  | .bulk32 => 32
  | .bulk16 => 16
  | .bulk8 => 8
  | .rem => s.rem.toNat
  | .finish => 0
  | .rsvd7 => 0

/-! ## Undefined behaviour: the block's only exceptional entry -/

/-- `raise UB(reason)`: FAULT is set and nothing else changes (60_exceptions.md R160). The block has no traps: nothing
is saved, no mode changes, and nothing returns from it (R167, R168). -/
def raiseUB (r : UB) (s : State) : State := { s with fault := some r }

/-- The model's code of a UB reason (60_exceptions.md R160). -/
def UB.code : UB → Nat
  | .precondWrap _ _ _ => 1
  | .precondOverlap _ _ _ => 2
  | .race _ _ => 3

/-- 60_exceptions.md R161 (a): neither range wraps past the top of the address space. -/
def noWrap (c : Config) (src dst len : Word) : Bool :=
  decide (src.toNat + len.toNat ≤ 2 ^ addrBits c ∧ dst.toNat + 2 * len.toNat ≤ 2 ^ addrBits c)

/-- 60_exceptions.md R161 (b): the length is 0 or the two ranges are disjoint. -/
def noOverlap (src dst len : Word) : Bool :=
  decide (len.toNat = 0 ∨ src.toNat + len.toNat ≤ dst.toNat ∨ dst.toNat + 2 * len.toNat ≤ src.toNat)

/-- The first precondition of 60_exceptions.md R161 that a START fails, (a) before (b) (R166 (a)). -/
def preconditionFailure (c : Config) (src dst len : Word) : Option UB :=
  if !noWrap c src dst len then some (.precondWrap src dst len)
  else if !noOverlap src dst len then some (.precondOverlap src dst len)
  else none

/-- A host access does its work while FAULT is empty, whatever PHASE holds (44_entry_and_host.md section 2). -/
def hostEnabled (s : State) (k : Host.Outcome State Fault Refusal) : Host.Outcome State Fault Refusal :=
  match s.fault with
  | some r => .fault (.ub r)
  | none => k

/-- An engine step does its work while FAULT is empty and PHASE selects it (41_bulk.md R100, "Enabled when"; a step
PHASE does not select is refused, log 15). -/
def engineEnabled (p : Phase) (s : State) (k : Host.Outcome State Fault Refusal) :
    Host.Outcome State Fault Refusal :=
  match s.fault with
  | some r => .fault (.ub r)
  | none => if s.phase = p then k else .refused (.notEnabled p)

/-! ## START, data steps, FINISH -/

/-- An accepted START whose preconditions hold (44_entry_and_host.md R131). -/
def startJob (s : State) : State :=
  { s with
    job := some { src := s.src, dst := s.dst, len := s.len, memAtStart := s.mem }
    rs := truncAddr s.config s.src
    wd := truncAddr s.config s.dst
    rem := truncAddr s.config s.len
    done := false
    phase := entryPhase s.config s.len.toNat }

/-- The START command (44_entry_and_host.md R131). -/
def start (s : State) : State :=
  match preconditionFailure s.config s.src s.dst s.len with
  | some r => raiseUB r s
  | none => startJob s

/-- The platform admits every event of a step that consumes `n` bytes (20_memory.md R40, 60_exceptions.md R163). -/
def admitted (s : State) (n : Nat) : Bool :=
  readsAdmitted s.config s.rs n && writesAdmitted s.config s.wd (2 * n)

/-- The engine is STUCK: the memory does not admit an event of the step PHASE selects (60_exceptions.md R163). -/
def engineStuck (s : State) : Bool := !admitted s (phaseBytes s s.phase)

/-- A STUCK engine makes no step: PHASE and everything else stay as they are, and the host and the reset go on
(60_exceptions.md R163, R168; log 7). -/
def stuckStep (s : State) : State := s

/-- What every data step does: `n` read events at RS, then the output bytes written at WD; the cursors advance, REM
falls by `n`, PHASE moves on (10_state.md R32, 20_memory.md R49), and HISTORY takes the step's events (R40). -/
def dataStep (s : State) (n : Nat) (out : List Byte) (next : Phase) : State :=
  { s with
    mem := s.mem.store (writeCells s.config s.wd 0 out)
    rs := advance s.config s.rs n
    wd := advance s.config s.wd (2 * n)
    rem := s.rem - BitVec.ofNat 64 n
    phase := next
    history := s.history ++
      [{ phase := s.phase
         reads := readCells s.config s.mem s.rs n
         writes := writeCells s.config s.wd 0 out }] }

/-- The FINISH step's effect (44_entry_and_host.md R132). From here to the next REM step SCALAR and CHARS are between
jobs and hold free values (10_state.md R33; log 5). -/
def finishJob (s : State) : State :=
  { s with
    srcEnd := truncAddr s.config s.rs
    dstEnd := truncAddr s.config s.wd
    done := true
    phase := .idle
    scalar := Config.freeScalar s.draws
    chars := Config.freeChars s.draws
    draws := s.draws + 1 }

end Sys2Proof.Machine
end

