-- ==== Sys2Proof/Machine/Tables.lean ====
section
/-! DEFINITION. The two ROMs as constant functions (40_tables.md R80 to R85; 10_state.md R34), and the datapath over
them: the nibble splitter, the lane lookup, the interleaver and the batch transform (41_bulk.md R90 to R95). Both
table construction modes give these contents, and no step ever sees others (40_tables.md R84, 70_reset_and_hazards.md
R182). -/

namespace Sys2Proof.Machine

/-- The contents of LUT16, entry 0 first (40_tables.md R80). -/
def lut16Contents : List Byte :=
  [0x30, 0x31, 0x32, 0x33, 0x34, 0x35, 0x36, 0x37, 0x38, 0x39, 0x61, 0x62, 0x63, 0x64, 0x65, 0x66]

/-- The LUT16 lookup `digit(k)` (40_tables.md R81). -/
def digit (k : Nibble) : Byte := lut16Contents.getD k.toNat 0

/-- The nibble splitter: (high, low) (41_bulk.md R90). -/
def split (b : Byte) : Nibble × Nibble := (b.extractLsb' 4 4, b.extractLsb' 0 4)

/-- The LUT256 lookup `pair(b)`: the high nibble's character in bits 7:0, the low nibble's in bits 15:8 (40_tables.md
R82, R83). -/
def pair (b : Byte) : BitVec 16 := digit (b.extractLsb' 0 4) ++ digit (b.extractLsb' 4 4)

/-- The lane lookup: the two characters of a byte, the high nibble's first (41_bulk.md R91). -/
def laneChars (b : Byte) : Byte × Byte := (digit (split b).1, digit (split b).2)

/-- The output interleaver over the lanes of a batch, which is the batch transform (41_bulk.md R92, R93). -/
def xform : List Byte → List Byte
  | [] => []
  | b :: bs => (laneChars b).1 :: (laneChars b).2 :: xform bs

end Sys2Proof.Machine
end

