-- ==== Sys2Proof/Machine/Operands.lean ====
section
/-! DEFINITION. The operand forms: the bits of `wdata` each register takes (30_encoding.md R63), the value operand of
a host line (30_encoding.md R71), and the operands an engine step assembles (30_encoding.md R68, 42_remainder.md
R110 to R113). -/

namespace Sys2Proof.Machine

/-- CTRL takes `wdata[0]`, the START strobe (30_encoding.md R63, 10_state.md R23). -/
def startStrobe (wdata : Word) : Bool := wdata.getLsbD 0

/-- SRC, DST and LEN take `wdata[ADDR_W-1:0]`, zero-extended (30_encoding.md R63, 10_state.md R31). -/
def argOperand (c : Config) (wdata : Word) : Word := truncAddr c wdata

/-- The name t<k> in the host's read results, the newest binding first (30_encoding.md R71). -/
def lookupTemp (k : Nat) : List (Nat × Word) → Option Word
  | [] => none
  | (k', v) :: ts => if k = k' then some v else lookupTemp k ts

/-- The value of a host write's operand, or the name that no earlier line read (30_encoding.md R71; log 21). -/
def resolve (s : State) : HostVal → Except Nat Word
  | .lit v => .ok v
  | .temp k =>
    match lookupTemp k s.temps with
    | some v => .ok v
    | none => .error k

/-- The remainder unpacker: the `r` bytes at RS in address order, zero above them (42_remainder.md R110). -/
def assemble (s : State) (r : Nat) : BitVec 64 := pack 64 (readBytes s.config s.mem s.rs r)

/-- The remainder transform of SCALAR at 8 bytes (42_remainder.md R112). -/
def transformScalar (scalar : BitVec 64) : BitVec 128 := pack 128 (xform (bytesOf scalar 8))

/-- The characters the partial store selects, 0 to 2r-1 of CHARS (42_remainder.md R113). -/
def selectChars (chars : BitVec 128) (r : Nat) : List Byte := bytesOf chars (2 * r)

end Sys2Proof.Machine
end

