-- ==== Sys2Proof/Machine/Flags.lean ====
section
/-! DEFINITION. The block's only flags, STATUS.BUSY and STATUS.DONE (10_state.md R24), and the constant CONFIG word
(10_state.md R30). START clears DONE in `startJob` and FINISH sets it in `finishJob`; nothing else writes it but
reset. -/

namespace Sys2Proof.Machine

/-- STATUS.BUSY: 1 exactly when PHASE is not IDLE (10_state.md R24). -/
def busy (s : State) : Bool := decide (s.phase ≠ .idle)

/-- The STATUS word: DONE in bit 1, BUSY in bit 0, the rest 0 (10_state.md R24, 44_entry_and_host.md R142). -/
def statusWord (s : State) : Word := (0#62 ++ BitVec.ofBool s.done) ++ BitVec.ofBool (busy s)

/-- CONFIG bits 7:0 (10_state.md R30). -/
def maxBatchField (c : Config) : BitVec 8 :=
  match c.maxBatch with
  | .b32 => 0x20
  | .b16 => 0x10

/-- CONFIG bit 8 (10_state.md R30). -/
def tableModeField (c : Config) : BitVec 1 :=
  match c.tableMode with
  | .rom => 0
  | .synth => 1

/-- CONFIG bits 23:16 (10_state.md R30). -/
def addrWField (c : Config) : BitVec 8 :=
  match c.addrW with
  | .w32 => 0x20
  | .w64 => 0x40

/-- The CONFIG word (10_state.md R30). -/
def configWord (c : Config) : Word :=
  0#40 ++ addrWField c ++ 0#7 ++ tableModeField c ++ maxBatchField c

end Sys2Proof.Machine
end

