-- ==== Sys2Proof/Machine/HostReads.lean ====
section
/-! DEFINITION. The host register reads (44_entry_and_host.md R140 to R156, the even rules). A read returns its value
in `rdata` and changes nothing else; it performs no memory event and raises nothing. -/

namespace Sys2Proof.Machine

/-- A read access that returns `v` (44_entry_and_host.md section 2). -/
def returnData (s : State) (v : Word) : Host.Outcome State Fault Refusal :=
  hostEnabled s (.next { s with rdata := v })

/-- RD_CTRL: 0 (44_entry_and_host.md R140). -/
def execRdCtrl (s : State) : Host.Outcome State Fault Refusal := returnData s 0

/-- RD_STATUS: DONE and BUSY; reading changes neither (44_entry_and_host.md R142). -/
def execRdStatus (s : State) : Host.Outcome State Fault Refusal := returnData s (statusWord s)

/-- RD_SRC: the job's `src`, not the cursor (44_entry_and_host.md R144). -/
def execRdSrc (s : State) : Host.Outcome State Fault Refusal := returnData s s.src

/-- RD_DST: the job's `dst`, not the cursor (44_entry_and_host.md R146). -/
def execRdDst (s : State) : Host.Outcome State Fault Refusal := returnData s s.dst

/-- RD_LEN: the job's `n`, not the remaining count (44_entry_and_host.md R148). -/
def execRdLen (s : State) : Host.Outcome State Fault Refusal := returnData s s.len

/-- RD_SRC_END (44_entry_and_host.md R150). -/
def execRdSrcEnd (s : State) : Host.Outcome State Fault Refusal := returnData s s.srcEnd

/-- RD_DST_END (44_entry_and_host.md R152). -/
def execRdDstEnd (s : State) : Host.Outcome State Fault Refusal := returnData s s.dstEnd

/-- RD_CONFIG: the constant of the build (44_entry_and_host.md R154). -/
def execRdConfig (s : State) : Host.Outcome State Fault Refusal := returnData s (configWord s.config)

/-- RD_RSVD, IDX 8 to 15: 0 (44_entry_and_host.md R156). -/
def execRdRsvd8 (_idx : BitVec 5) (s : State) : Host.Outcome State Fault Refusal := returnData s 0

/-- RD_RSVD, IDX 16 to 31: 0 (44_entry_and_host.md R156). -/
def execRdRsvd16 (_idx : BitVec 5) (s : State) : Host.Outcome State Fault Refusal := returnData s 0

end Sys2Proof.Machine
end

