-- ==== Sys2Proof/Machine/HostWrites.lean ====
section
/-! DEFINITION. The host register writes (44_entry_and_host.md R141 to R157, the odd rules). -/

namespace Sys2Proof.Machine

/-- A write access the block ignores (30_encoding.md R64, 10_state.md R24). -/
def ignoreWrite (s : State) : Host.Outcome State Fault Refusal := hostEnabled s (.next s)

/-- WR_CTRL: a START when `wdata[0]` is 1 and PHASE is IDLE, else no change (44_entry_and_host.md R141). -/
def execWrCtrl (wdata : Word) (s : State) : Host.Outcome State Fault Refusal :=
  hostEnabled s (.next (if startStrobe wdata && !busy s then start s else s))

/-- WR_STATUS: ignored (44_entry_and_host.md R143). -/
def execWrStatus (_wdata : Word) (s : State) : Host.Outcome State Fault Refusal := ignoreWrite s

/-- WR_SRC: taken while PHASE is IDLE, else ignored (44_entry_and_host.md R145). -/
def execWrSrc (wdata : Word) (s : State) : Host.Outcome State Fault Refusal :=
  hostEnabled s (.next (if busy s then s else { s with src := argOperand s.config wdata }))

/-- WR_DST: taken while PHASE is IDLE, else ignored (44_entry_and_host.md R147). -/
def execWrDst (wdata : Word) (s : State) : Host.Outcome State Fault Refusal :=
  hostEnabled s (.next (if busy s then s else { s with dst := argOperand s.config wdata }))

/-- WR_LEN: taken while PHASE is IDLE, else ignored (44_entry_and_host.md R149). -/
def execWrLen (wdata : Word) (s : State) : Host.Outcome State Fault Refusal :=
  hostEnabled s (.next (if busy s then s else { s with len := argOperand s.config wdata }))

/-- WR_SRC_END: ignored (44_entry_and_host.md R151). -/
def execWrSrcEnd (_wdata : Word) (s : State) : Host.Outcome State Fault Refusal := ignoreWrite s

/-- WR_DST_END: ignored (44_entry_and_host.md R153). -/
def execWrDstEnd (_wdata : Word) (s : State) : Host.Outcome State Fault Refusal := ignoreWrite s

/-- WR_CONFIG: ignored (44_entry_and_host.md R155). -/
def execWrConfig (_wdata : Word) (s : State) : Host.Outcome State Fault Refusal := ignoreWrite s

/-- WR_RSVD, IDX 8 to 15: ignored (44_entry_and_host.md R157). -/
def execWrRsvd8 (_idx : BitVec 5) (_wdata : Word) (s : State) : Host.Outcome State Fault Refusal := ignoreWrite s

/-- WR_RSVD, IDX 16 to 31: ignored (44_entry_and_host.md R157). -/
def execWrRsvd16 (_idx : BitVec 5) (_wdata : Word) (s : State) : Host.Outcome State Fault Refusal := ignoreWrite s

end Sys2Proof.Machine
end

