-- ==== Sys2Proof/Machine/Engine.lean ====
section
/-! DEFINITION. The engine steps (30_encoding.md R66): IDLE, FAST1, BULK32, BULK16, BULK8, REM, FINISH and the
reserved code. A step whose memory events the platform does not admit leaves the engine STUCK (60_exceptions.md
R163). -/

namespace Sys2Proof.Machine

/-- A data step of `n` bytes: refused when its guard of 41_bulk.md R98 is false, waiting when the memory does not
admit it (60_exceptions.md R163), else the effect `t`. -/
def guardedData (p : Phase) (n : Nat) (t : State) (s : State) : Host.Outcome State Fault Refusal :=
  if phaseGuard s p then (if admitted s n then .next t else .next (stuckStep s))
  else .refused (.guardFalse p)

/-- A bulk step of batch width `b` (41_bulk.md R100 to R102). -/
def bulkStep (p : Phase) (b : Nat) (s : State) : Host.Outcome State Fault Refusal :=
  engineEnabled p s (guardedData p b
    (dataStep s b (xform (readBytes s.config s.mem s.rs b)) (nextPhase s.config (s.rem.toNat - b))) s)

/-- IDLE: the engine waits for a START and every register keeps its value (44_entry_and_host.md R133, 60_exceptions.md
R176; log 8). -/
def execIdle (s : State) : Host.Outcome State Fault Refusal := engineEnabled .idle s (.next s)

/-- BULK32 (41_bulk.md R100). -/
def execBulk32 (s : State) : Host.Outcome State Fault Refusal := bulkStep .bulk32 32 s

/-- BULK16 (41_bulk.md R101). -/
def execBulk16 (s : State) : Host.Outcome State Fault Refusal := bulkStep .bulk16 16 s

/-- BULK8 (41_bulk.md R102). -/
def execBulk8 (s : State) : Host.Outcome State Fault Refusal := bulkStep .bulk8 8 s

/-- The two write bytes of FAST1: bits 7:0 of the LUT256 entry at WD, bits 15:8 after it (43_fast_path.md R125). -/
def fastBytes (b : Byte) : List Byte := bytesOf (pair b) 2

/-- FAST1: one byte through LUT256, with no nibble split (43_fast_path.md R125). -/
def execFast1 (s : State) : Host.Outcome State Fault Refusal :=
  engineEnabled .fast1 s (guardedData .fast1 1
    { dataStep s 1 (fastBytes (s.mem.read (portAddr s.config s.rs 0))) .finish with rem := 0 } s)

/-- REM: `REM` bytes assembled into SCALAR, transformed into CHARS, the first 2·REM characters stored
(42_remainder.md R115). -/
def execRem (s : State) : Host.Outcome State Fault Refusal :=
  engineEnabled .rem s (guardedData .rem s.rem.toNat
    { dataStep s s.rem.toNat (selectChars (transformScalar (assemble s s.rem.toNat)) s.rem.toNat) .finish with
      rem := 0
      scalar := assemble s s.rem.toNat
      chars := transformScalar (assemble s s.rem.toNat) } s)

/-- FINISH: the end cursors, DONE and IDLE, with no memory event (44_entry_and_host.md R132). -/
def execFinish (s : State) : Host.Outcome State Fault Refusal :=
  engineEnabled .finish s
    (if phaseGuard s .finish then .next (finishJob s) else .refused (.guardFalse .finish))

/-- The reserved PHASE code: a model that finds it refuses (30_encoding.md R67). -/
def execRsvd7 (s : State) : Host.Outcome State Fault Refusal :=
  engineEnabled .rsvd7 s (.refused .reservedPhase)

end Sys2Proof.Machine
end

