-- ==== Sys2Proof/Machine/Dispatch.lean ====
section
/-! DEFINITION. The meaning of every operation: one arm per constructor of Instr. -/

namespace Sys2Proof.Machine

def exec (i : Instr) (s : State) : Host.Outcome State Fault Refusal :=
  match i with
  -- HOST reads and writes, in the table's order (30_encoding.md R69)
  | .rdCtrl => Sys2Proof.Machine.execRdCtrl s
  | .wrCtrl wdata => Sys2Proof.Machine.execWrCtrl wdata s
  | .rdStatus => Sys2Proof.Machine.execRdStatus s
  | .wrStatus wdata => Sys2Proof.Machine.execWrStatus wdata s
  | .rdSrc => Sys2Proof.Machine.execRdSrc s
  | .wrSrc wdata => Sys2Proof.Machine.execWrSrc wdata s
  | .rdDst => Sys2Proof.Machine.execRdDst s
  | .wrDst wdata => Sys2Proof.Machine.execWrDst wdata s
  | .rdLen => Sys2Proof.Machine.execRdLen s
  | .wrLen wdata => Sys2Proof.Machine.execWrLen wdata s
  | .rdSrcEnd => Sys2Proof.Machine.execRdSrcEnd s
  | .wrSrcEnd wdata => Sys2Proof.Machine.execWrSrcEnd wdata s
  | .rdDstEnd => Sys2Proof.Machine.execRdDstEnd s
  | .wrDstEnd wdata => Sys2Proof.Machine.execWrDstEnd wdata s
  | .rdConfig => Sys2Proof.Machine.execRdConfig s
  | .wrConfig wdata => Sys2Proof.Machine.execWrConfig wdata s
  | .rdRsvd8 idx => Sys2Proof.Machine.execRdRsvd8 idx s
  | .rdRsvd16 idx => Sys2Proof.Machine.execRdRsvd16 idx s
  | .wrRsvd8 idx wdata => Sys2Proof.Machine.execWrRsvd8 idx wdata s
  | .wrRsvd16 idx wdata => Sys2Proof.Machine.execWrRsvd16 idx wdata s
  -- PHASE steps
  | .idle => Sys2Proof.Machine.execIdle s
  | .fast1 => Sys2Proof.Machine.execFast1 s
  | .bulk32 => Sys2Proof.Machine.execBulk32 s
  | .bulk16 => Sys2Proof.Machine.execBulk16 s
  | .bulk8 => Sys2Proof.Machine.execBulk8 s
  | .rem => Sys2Proof.Machine.execRem s
  | .finish => Sys2Proof.Machine.execFinish s
  | .rsvd7 => Sys2Proof.Machine.execRsvd7 s

end Sys2Proof.Machine
end

