-- ==== Sys2Proof/Machine/Reset.lean ====
section
/-! DEFINITION. The reset of the block as one transition, available at every state (70_reset_and_hazards.md R180 to
R183). -/

namespace Sys2Proof.Machine

/-- The job's output byte `i` of its destination (44_entry_and_host.md R130 (a)): a character of source byte `i / 2`,
as memory held it at the job's start. -/
def jobOutputByte (j : Job) (i : Nat) : Byte :=
  if i % 2 = 0 then (laneChars (j.memAtStart.read (j.src.toNat + i / 2))).1
  else (laneChars (j.memAtStart.read (j.src.toNat + i / 2))).2

/-- What byte `i` of an abandoned job's destination holds: its value before the job or the job's output byte, as the
free value says (70_reset_and_hazards.md R183; log 6). The choice is free for every byte, that of a STUCK job too. -/
def abandonedByte (j : Job) (draw i : Nat) : Byte :=
  if Config.abandonedByteNew draw i then jobOutputByte j i
  else j.memAtStart.read (j.dst.toNat + i)

/-- Memory with the first `n` destination bytes of an abandoned job settled (70_reset_and_hazards.md R183). -/
def abandonBytes (j : Job) (draw : Nat) : Nat → Memory → Memory
  | 0, m => m
  | n + 1, m => (abandonBytes j draw n m).write (j.dst.toNat + n) (abandonedByte j draw n)

/-- Data memory after a reset: unchanged when no job runs (R181), else unspecified over the job's destination
(R183). -/
def resetMemory (s : State) : Memory :=
  match s.phase, s.job with
  | .idle, _ => s.mem
  | _, none => s.mem
  | _, some j => abandonBytes j s.draws (2 * j.len.toNat) s.mem

/-- The reset transition (70_reset_and_hazards.md R181). SCALAR and CHARS take free values (log 5); FAULT and HISTORY
stay; the host, which is not part of the block, keeps its program and results. -/
def resetBlock (s : State) : State :=
  { s with
    src := 0
    dst := 0
    len := 0
    srcEnd := 0
    dstEnd := 0
    done := false
    phase := .idle
    rs := 0
    wd := 0
    rem := 0
    scalar := Config.freeScalar s.draws
    chars := Config.freeChars s.draws
    mem := resetMemory s
    job := none
    draws := s.draws + 1 }

end Sys2Proof.Machine
end

