-- ==== Sys2Proof/Machine/Agents.lean ====
section
/-! DEFINITION. The two agents of the machine and the order of their turns (00_scope.md R8): what the HOST does with
the next line of its program, what the ENGINE does, who moves next, and how one operation is placed to run next. -/

namespace Sys2Proof.Machine

/-- The outcome of a continuation after a next state. -/
def andThen (o : Host.Outcome State Fault Refusal) (f : State → State) : Host.Outcome State Fault Refusal :=
  match o with
  | .next s => .next (f s)
  | .fault r => .fault r
  | .refused r => .refused r

/-! ## The host -/

/-- Bind a named read result t<k> to a value (30_encoding.md R71). -/
def bindTemp (dest : Option Nat) (v : Word) (s : State) : State :=
  match dest with
  | some k => { s with temps := (k, v) :: s.temps }
  | none => s

/-- Bind the register port's read data to the read's name. -/
def bindRead (dest : Option Nat) (s : State) : State := bindTemp dest s.rdata s

/-- One register access through its descriptor (30_encoding.md R60); only a read binds a name. -/
def hostAccess (desc : BitVec 6) (wdata : Word) (dest : Option Nat) (s : State) :
    Host.Outcome State Fault Refusal :=
  andThen (exec (decodeHost desc wdata) s) (if descWrite desc then id else bindRead dest)

/-- A host memory access that touches a running job's buffers in a way 70_reset_and_hazards.md R187 forbids. -/
def races (s : State) (a : Nat) (kind : AccessKind) : Bool :=
  match s.job with
  | none => false
  | some j =>
    busy s &&
      (decide (j.dst.toNat ≤ a ∧ a < j.dst.toNat + 2 * j.len.toNat) ||
        (decide (kind = .write) && decide (j.src.toNat ≤ a ∧ a < j.src.toNat + j.len.toNat)))

/-- The host reads a byte of data memory (00_scope.md R8, 70_reset_and_hazards.md R187; log 19). DESIGN CHOICE
(log 17): the byte arrives zero-extended. DESIGN CHOICE (log 23): a memory line reaches data memory at every address, also
one inside the register window. -/
def hostMemRead (a : Nat) (dest : Option Nat) (s : State) : Host.Outcome State Fault Refusal :=
  hostEnabled s
    (if races s a .read then .next (raiseUB (.race a .read) s)
     else if readable s.config a then .next (bindTemp dest ((s.mem.read a).setWidth 64) s)
     else .refused (.hostMemory a .read))

/-- The host writes a byte of data memory (00_scope.md R8, 70_reset_and_hazards.md R187; log 19). DESIGN CHOICE (log 23):
a memory line reaches data memory at every address, also one inside the register window. -/
def hostMemWrite (a : Nat) (b : Byte) (s : State) : Host.Outcome State Fault Refusal :=
  hostEnabled s
    (if races s a .write then .next (raiseUB (.race a .write) s)
     else if writable s.config a then .next { s with mem := s.mem.write a b }
     else .refused (.hostMemory a .write))

/-- A wait line repeats while the STATUS it has just read does not satisfy it (30_encoding.md R72). -/
def repeatUnless (ok : Word → Bool) (op : HostOp) (s : State) : State :=
  if ok s.rdata then s else { s with hostProgram := op :: s.hostProgram }

/-- The host executes one line, already taken off its program (30_encoding.md R71, R72). -/
def hostLine (op : HostOp) (s : State) : Host.Outcome State Fault Refusal :=
  match op with
  | .reg desc wdata dest =>
    match resolve s wdata with
    | .ok v => hostAccess desc v dest s
    | .error k => hostEnabled s (.refused (.unboundTemp k))
  | .windowRead addr width dest =>
    match decodeWindow s.config.regBase addr width with
    | .ok idx => hostAccess (mkDesc false idx) 0 dest s
    | .error _ => hostEnabled s (.refused (.badRegisterAccess addr width))
  | .windowWrite addr data =>
    match decodeWindow s.config.regBase addr data.length with
    | .ok idx => hostAccess (mkDesc true idx) (pack 64 data) none s
    | .error _ => hostEnabled s (.refused (.badRegisterAccess addr data.length))
  | .waitDone dest => andThen (hostAccess 0x01#6 0 dest s) (repeatUnless (fun v => v.getLsbD 1) op)
  | .waitIdle dest => andThen (hostAccess 0x01#6 0 dest s) (repeatUnless (fun v => !v.getLsbD 0) op)
  | .memRead addr dest => hostMemRead addr dest s
  | .memWrite addr b => hostMemWrite addr b s

/-- The host's turn: its next line, or nothing when the program has executed its last access
(70_reset_and_hazards.md R192 (a)). -/
def hostTurn (s : State) : Host.Outcome State Fault Refusal :=
  match s.hostProgram with
  | [] => hostEnabled s (.next s)
  | op :: rest => hostLine op { s with hostProgram := rest }

/-! ## The engine -/

/-- The operation PHASE selects (30_encoding.md R66). -/
def engineInstr (s : State) : Instr := decodePhase s.phase.code

/-- The engine's turn: the step PHASE selects (00_scope.md R8). -/
def engineTurn (s : State) : Host.Outcome State Fault Refusal := exec (engineInstr s) s

/-! ## Turns -/

/-- A register access in the cycle of a reset is lost: the host goes on after it, and a read's name holds a free value
(60_exceptions.md R166 (c); log 20). A wait line reads again. While FAULT is set the host has no step to lose
(60_exceptions.md R160). DESIGN CHOICE (log 20): a lost access is not looked at, so a narrow, wide or misaligned one
(30_encoding.md R61), or one whose value is an unread name, is lost like any other and not refused. -/
def loseAccess (s : State) : State :=
  match s.fault, s.hostProgram with
  | none, .reg desc _ dest :: rest =>
    if descWrite desc then { s with hostProgram := rest }
    else bindTemp dest (Config.lostRead s.draws) { s with hostProgram := rest }
  | none, .windowRead _ _ dest :: rest => bindTemp dest (Config.lostRead s.draws) { s with hostProgram := rest }
  | none, .windowWrite _ _ :: rest => { s with hostProgram := rest }
  | _, _ => s

/-- Who moves next: the first listed turn; with none listed, the engine while it has an enabled data step or FINISH,
else the host, and the idle engine when the host's program is over. DESIGN CHOICE (log 9): every finite order of
turns can be listed, and the order after the last listed turn is fair (70_reset_and_hazards.md R194). -/
def nextTurn (s : State) : Turn :=
  match s.turns with
  | t :: _ => t
  | [] =>
    if s.hostProgram.isEmpty then .engine
    else if !busy s || engineStuck s then .host
    else .engine

/-- The turn is taken off the list. -/
def popTurn (s : State) : State := { s with turns := s.turns.tail }

/-- One turn of the machine (00_scope.md R8, 70_reset_and_hazards.md R180). -/
def takeTurn (t : Turn) (s : State) : Host.Outcome State Fault Refusal :=
  match t with
  | .host => hostTurn s
  | .engine => engineTurn s
  | .reset => .next (resetBlock s)
  | .resetLost => .next (resetBlock (loseAccess s))

/-! ## Placing an operation to run next -/

/-- A count that satisfies the guard of the phase (41_bulk.md R98, 43_fast_path.md R125): the smallest. -/
def smallestCount : Phase → Word
  | .idle => 0
  | .fast1 => 1
  | .bulk32 => 32
  | .bulk16 => 16
  | .bulk8 => 8
  | .rem => 1
  | .finish => 0
  | .rsvd7 => 0

/-- Place a table word so that the next step performs it (log 2): a HOST descriptor becomes the next line of the
host's program, with a data word of zeros, and the host moves; a PHASE code goes into PHASE, with REM at the smallest
count its guard admits, and the engine moves. -/
def placeWord (s : State) (nbits w : Nat) : State :=
  match tableSpace nbits with
  | .host =>
    { s with
      hostProgram := .reg (BitVec.ofNat 6 w) (.lit 0) none :: s.hostProgram
      turns := .host :: s.turns }
  | .phase =>
    { s with
      phase := Phase.ofCode (BitVec.ofNat 3 w)
      rem := smallestCount (Phase.ofCode (BitVec.ofNat 3 w))
      turns := .engine :: s.turns }

end Sys2Proof.Machine
end

