-- ==== Sys2Proof/Machine/HostProgram.lean ====
section
/-! DEFINITION. Host assembly and its pseudo-instructions as host program lines (30_encoding.md R71, R72). -/

namespace Sys2Proof.Machine

/-- `RD <REG> -> t<k>` for register index `idx` (30_encoding.md R71). -/
def rdLine (idx : BitVec 5) (dest : Option Nat) : HostOp := .reg (mkDesc false idx) (.lit 0) dest

/-- `WR <REG>, <value>` for register index `idx` (30_encoding.md R71). -/
def wrLine (idx : BitVec 5) (v : HostVal) : HostOp := .reg (mkDesc true idx) v none

/-- The pseudo-instruction `START` (30_encoding.md R72). -/
def startLine : HostOp := wrLine 0 (.lit 1)

/-- The pseudo-instruction `ENCODE d, s, n`, with the names its last two reads bind (30_encoding.md R72). DESIGN CHOICE
(log 24): the STATUS reads of its two waits bind no name. -/
def encodeLines (d s n : HostVal) (tDst tSrc : Nat) : List HostOp :=
  [.waitIdle none, wrLine 2 s, wrLine 3 d, wrLine 4 n, startLine, .waitDone none,
   rdLine 6 (some tDst), rdLine 5 (some tSrc)]

end Sys2Proof.Machine
end

