-- ==== Sys2Proof/Machine/Step.lean ====
section
/-! DEFINITION. One step of the machine: the agent whose turn it is makes one atomic transition (00_scope.md R8). -/

namespace Sys2Proof.Machine

/-- The agent whose turn it is moves. -/
def step (s : State) : Host.Outcome State Fault Refusal := takeTurn (nextTurn s) (popTurn s)

/-- `s` with the operation of a table word placed so that the next step performs it (log 2). -/
def State.withFetchWord (s : State) (nbits w : Nat) : State := placeWord s nbits w

end Sys2Proof.Machine
end

