-- ==== Sys2Proof/Safety.lean ====
section
/-! DEFINITION. What claims about the machine speak of: the end of a run, several steps, the invariants of the
registers, of the sequencer, of memory and of a running job's data, and what a job is to do. -/

namespace Sys2Proof.Machine

/-- The end of a run (70_reset_and_hazards.md R192): the host's program is over, PHASE is IDLE, FAULT is empty. -/
def State.final (s : State) : Prop := s.hostProgram = [] ∧ s.phase = .idle ∧ s.fault = none

/-- `k` steps, up to the first that answers no next state. -/
def runSteps : Nat → State → Host.Outcome State Fault Refusal
  | 0, s => .next s
  | k + 1, s =>
    match step s with
    | .next t => runSteps k t
    | .fault r => .fault r
    | .refused r => .refused r

/-! ## Invariants -/

/-- Every memory the state holds is in canonical form. -/
def MemoryCanonical (s : State) : Prop :=
  s.mem.wf = true ∧ ∀ j, s.job = some j → j.memAtStart.wf = true

/-- The address and count registers hold ADDR_W-bit values (10_state.md R31, R32). -/
structure RegistersFit (s : State) : Prop where
  src : s.src.toNat < 2 ^ addrBits s.config
  dst : s.dst.toNat < 2 ^ addrBits s.config
  len : s.len.toNat < 2 ^ addrBits s.config
  srcEnd : s.srcEnd.toNat < 2 ^ addrBits s.config
  dstEnd : s.dstEnd.toNat < 2 ^ addrBits s.config
  rs : s.rs.toNat < 2 ^ addrBits s.config
  wd : s.wd.toNat < 2 ^ addrBits s.config
  rem : s.rem.toNat < 2 ^ addrBits s.config

/-- The running job and the cursors (10_state.md R32): the job has the register's arguments, they meet the
preconditions, and RS and WD stand REM bytes before the end. -/
structure CursorsFollowJob (s : State) (j : Job) : Prop where
  src : j.src = s.src
  dst : j.dst = s.dst
  len : j.len = s.len
  noWrap : noWrap s.config s.src s.dst s.len = true
  noOverlap : noOverlap s.src s.dst s.len = true
  rem : s.rem.toNat ≤ s.len.toNat
  rs : s.rs.toNat = (s.src.toNat + (s.len.toNat - s.rem.toNat)) % 2 ^ addrBits s.config
  wd : s.wd.toNat = (s.dst.toNat + 2 * (s.len.toNat - s.rem.toNat)) % 2 ^ addrBits s.config

/-- The sequencer (10_state.md R24, R32; 41_bulk.md R98; 30_encoding.md R67): DONE only while idle, never the
reserved code, the guard of the phase, and a running job behind every busy state. -/
structure SequencerSound (s : State) : Prop where
  done : s.done = true → s.phase = .idle
  notReserved : s.phase ≠ .rsvd7
  guard : phaseGuard s s.phase = true
  fast : s.phase = .fast1 → s.rem.toNat = 1
  job : s.phase ≠ .idle → ∃ j, s.job = some j ∧ CursorsFollowJob s j

/-- The data of a running job of which `k` source bytes are encoded (44_entry_and_host.md R130; 20_memory.md R43,
R46): their characters are written, the rest of the destination and all of the source are as at the job's start. -/
structure JobDataAt (m : Memory) (j : Job) (k : Nat) : Prop where
  written : ∀ i < k,
    m.read (j.dst.toNat + 2 * i) = digit ((j.memAtStart.read (j.src.toNat + i)).extractLsb' 4 4) ∧
      m.read (j.dst.toNat + 2 * i + 1) = digit ((j.memAtStart.read (j.src.toNat + i)).extractLsb' 0 4)
  unwritten : ∀ i, 2 * k ≤ i → i < 2 * j.len.toNat →
    m.read (j.dst.toNat + i) = j.memAtStart.read (j.dst.toNat + i)
  source : ∀ i < j.len.toNat, m.read (j.src.toNat + i) = j.memAtStart.read (j.src.toNat + i)

/-- While a job runs, its data stand as its cursors say. -/
def JobDataSound (s : State) : Prop :=
  s.phase ≠ .idle → ∀ j, s.job = some j → JobDataAt s.mem j (s.len.toNat - s.rem.toNat)

/-! ## Named read results -/

/-- The named results after a read whose name is `dest`, if it has one, has returned `v` (30_encoding.md R71). -/
def namesWith (dest : Option Nat) (v : Word) (names : List (Nat × Word)) : List (Nat × Word) :=
  match dest with
  | some k => (k, v) :: names
  | none => names

/-- The value operand `val` of a line stands for `v`: it is the literal, or the name of an earlier read that returned
it (30_encoding.md R71). -/
def Denotes (s : State) (val : HostVal) (v : Word) : Prop :=
  val = .lit v ∨ ∃ k, val = .temp k ∧ lookupTemp k s.temps = some v

/-! ## What a data step does -/

/-- `t` is `s` after a data step of `n` bytes: the characters of the `n` bytes at RS stand at WD, every byte outside
the 2n stored ones is unchanged, the cursors have moved on by n and 2n modulo 2^ADDR_W and REM by n (10_state.md R32),
HISTORY has the step's n read events and 2n write events and no other (20_memory.md R40; their order inside the two
lists is the model's and means nothing, log 11), and nothing else has changed
but PHASE, SCALAR and CHARS, of which the step's own statement speaks. -/
structure EncodesAtCursors (s t : State) (n : Nat) : Prop where
  chars : ∀ i < n,
    t.mem.read (portAddr s.config s.wd (2 * i)) =
        digit ((s.mem.read (portAddr s.config s.rs i)).extractLsb' 4 4) ∧
      t.mem.read (portAddr s.config s.wd (2 * i + 1)) =
        digit ((s.mem.read (portAddr s.config s.rs i)).extractLsb' 0 4)
  elsewhere : ∀ a, (∀ j < 2 * n, portAddr s.config s.wd j ≠ a) → t.mem.read a = s.mem.read a
  rs : t.rs.toNat = (s.rs.toNat + n) % 2 ^ addrBits s.config
  wd : t.wd.toNat = (s.wd.toNat + 2 * n) % 2 ^ addrBits s.config
  rem : t.rem.toNat = s.rem.toNat - n
  history : ∃ ev, t.history = s.history ++ [ev] ∧ ev.phase = s.phase ∧
    ev.reads = ((List.range n).map fun i =>
      (portAddr s.config s.rs i, s.mem.read (portAddr s.config s.rs i))) ∧
    ev.writes = ((List.range (2 * n)).map fun j =>
      (portAddr s.config s.wd j, t.mem.read (portAddr s.config s.wd j)))
  frame : t = { s with
    mem := t.mem, rs := t.rs, wd := t.wd, rem := t.rem, phase := t.phase, history := t.history,
    scalar := t.scalar, chars := t.chars }

/-! ## A job from its START -/

/-- A state in which a START of the job in SRC, DST and LEN is accepted and meets every precondition of
60_exceptions.md R161, with only the engine left to move afterwards. -/
structure ReadyToStart (s : State) : Prop where
  live : s.fault = none
  idle : s.phase = .idle
  noProgram : s.hostProgram = []
  noTurns : s.turns = []
  canonical : s.mem.wf = true
  fit : RegistersFit s
  noWrap : noWrap s.config s.src s.dst s.len = true
  noOverlap : noOverlap s.src s.dst s.len = true
  readable : ∀ i < s.len.toNat, readable s.config (s.src.toNat + i) = true
  writable : ∀ i < 2 * s.len.toNat, writable s.config (s.dst.toNat + i) = true

/-- `u` is the state in which the job started in `s` has ended: a START is accepted in `s`, and within the step bound
`n div 8 + 2` of 44_entry_and_host.md R136 the engine is idle again. -/
def JobEndsIn (s u : State) : Prop :=
  ∃ t k, exec (.wrCtrl 1) s = .next t ∧ k ≤ s.len.toNat / 8 + 2 ∧ runSteps k t = .next u ∧ u.phase = .idle

/-- The data phases a job of length `n` visits before FINISH (44_entry_and_host.md R135). -/
def jobPhases (c : Config) (n : Nat) : List Phase :=
  if n = 0 then []
  else if n = 1 then [.fast1]
  else
    match c.maxBatch with
    | .b32 =>
      List.replicate (n / 32) .bulk32 ++ List.replicate (n % 32 / 16) .bulk16 ++
        List.replicate (n % 16 / 8) .bulk8 ++ (if n % 8 ≠ 0 then [.rem] else [])
    | .b16 =>
      List.replicate (n / 16) .bulk16 ++ List.replicate (n % 16 / 8) .bulk8 ++
        (if n % 8 ≠ 0 then [.rem] else [])

/-- A host access, as opposed to an engine step (30_encoding.md R69). -/
def isHostAccess (i : Instr) : Bool := (rowOf i).space == .host

end Sys2Proof.Machine
end

