-- ==== Sys2Proof/Certificates/Slice0/Obligations.lean ====
section
/-! DEFINITION. The statements about the machine, each from the rule of spec/ its docstring names. -/

open Sys2Proof Sys2Proof.Machine

/-! ## Encoding -/

/-- 30_encoding.md R60, R66, R69: no bit of an encoding is dropped. -/
def Obligations.DecodeOfEncodeIsIdentity : Prop :=
  ∀ i : Instr, i.wellFormed = true → decode (encode i) = i

/-- 30_encoding.md R60, R66: each code has one meaning; only the data word of a read is dropped. -/
def Obligations.EncodeOfDecodeIsIdentity : Prop :=
  ∀ c : Code, encode (decode c) =
    match c with
    | .host desc wdata => .host desc (if desc.getLsbD 5 then wdata else 0)
    | .phase code => .phase code

/-- 30_encoding.md R69 (an inference the spec draws itself): in each space every code value matches exactly one row of
the opcode map, that of the operation it decodes to, which is well formed. -/
def Obligations.EveryCodeMatchesOneRow : Prop :=
  ∀ c : Code, (decode c).wellFormed = true ∧
    rowOf (decode c) ∈ hostRows ++ phaseRows ∧ (rowOf (decode c)).space = c.space ∧
    ∀ r ∈ hostRows ++ phaseRows, r.space = c.space →
      (r.accepts c.value = true ↔ r = rowOf (decode c))

/-- 30_encoding.md R69: words written out from the opcode map decode to their operations. -/
def Obligations.TableWordsDecode : Prop :=
  decodeHost 0b000001#6 0 = .rdStatus ∧ decodeHost 0b000111#6 0 = .rdConfig ∧
    decodeHost 0b100000#6 1 = .wrCtrl 1 ∧ decodeHost 0b100010#6 0x1000 = .wrSrc 0x1000 ∧
    decodeHost 0b011111#6 0 = .rdRsvd16 31 ∧ decodeHost 0b101000#6 5 = .wrRsvd8 8 5 ∧
    decodePhase 0b000#3 = .idle ∧ decodePhase 0b010#3 = .bulk32 ∧ decodePhase 0b101#3 = .rem ∧
    decodePhase 0b111#3 = .rsvd7 ∧
    decodeWord .host 64 0 = .error (.notADescriptor 64) ∧ decodeWord .phase 8 0 = .error (.notAPhaseCode 8)

/-- 30_encoding.md R61: a register access that is not 8 bytes wide, not 8-byte aligned or outside the 256-byte window
is refused, and every other one reaches the register of its offset (R60), its data little-endian (20_memory.md R42). -/
def Obligations.OnlyAlignedWideWindowAccesses : Prop :=
  ∀ (s : State) (rest : List HostOp), s.fault = none → s.config.regBase % 256 = 0 → nextTurn s = .host →
    (∀ addr width dest, s.hostProgram = .windowRead addr width dest :: rest →
      (width ≠ 8 ∨ addr % 8 ≠ 0 ∨ addr < s.config.regBase ∨ s.config.regBase + 256 ≤ addr) →
      step s = .refused (.badRegisterAccess addr width)) ∧
    (∀ addr data, s.hostProgram = .windowWrite addr data :: rest →
      (data.length ≠ 8 ∨ addr % 8 ≠ 0 ∨ addr < s.config.regBase ∨ s.config.regBase + 256 ≤ addr) →
      step s = .refused (.badRegisterAccess addr data.length)) ∧
    (∀ (idx : BitVec 5) dest,
      s.hostProgram = .windowRead (s.config.regBase + 8 * idx.toNat) 8 dest :: rest →
      step s = andThen (exec (decodeRead idx) { popTurn s with hostProgram := rest }) (bindRead dest)) ∧
    (∀ (idx : BitVec 5) (b0 b1 b2 b3 b4 b5 b6 b7 : Byte),
      s.hostProgram = .windowWrite (s.config.regBase + 8 * idx.toNat) [b0, b1, b2, b3, b4, b5, b6, b7] :: rest →
      step s = exec (decodeWrite idx (b7 ++ b6 ++ b5 ++ b4 ++ b3 ++ b2 ++ b1 ++ b0))
        { popTurn s with hostProgram := rest })

/-! ## The step runs the decoded operation -/

/-- 30_encoding.md R60, R71, 00_scope.md R8: on the host's turn a register line, whose value is a literal or an earlier
read's name, runs the operation its descriptor decodes to, off the program; a read binds its name to the read data. That
a value which is an unread name is refused is the model's choice (log 21), the order of turns too (log 9). -/
def Obligations.StepRunsTheHostLine : Prop :=
  ∀ (s : State) (desc : BitVec 6) (val : HostVal) (dest : Option Nat) (rest : List HostOp),
    nextTurn s = .host → s.hostProgram = .reg desc val dest :: rest →
      (∀ v, Denotes s val v →
        (decodeHost desc v).wellFormed = true ∧
        step s =
          andThen (exec (decodeHost desc v) { popTurn s with hostProgram := rest })
            (if desc.getLsbD 5 then id else bindRead dest)) ∧
      (∀ k, val = .temp k → lookupTemp k s.temps = none → s.fault = none → step s = .refused (.unboundTemp k))

/-- 30_encoding.md R66, 00_scope.md R8: on the engine's turn the step PHASE selects runs. The order of turns is the
model's choice (log 9). -/
def Obligations.StepRunsThePhase : Prop :=
  ∀ s : State, nextTurn s = .engine →
    (decodePhase s.phase.code).wellFormed = true ∧ step s = exec (decodePhase s.phase.code) (popTurn s)

/-- The model's own (log 1, log 2): a placed word is what the next step runs. -/
def Obligations.FetchWordRunsNext : Prop :=
  ∀ (s : State) (w : Nat),
    (w < 64 → step (s.withFetchWord 8 w) =
      andThen (exec (decodeHost (BitVec.ofNat 6 w) 0) s)
        (if (BitVec.ofNat 6 w).getLsbD 5 then id else bindRead none)) ∧
    (w < 8 → ∃ r : Word, step (s.withFetchWord 3 w) =
      exec (decodePhase (BitVec.ofNat 3 w)) { s with phase := Phase.ofCode (BitVec.ofNat 3 w), rem := r })

/-- 30_encoding.md R72: a wait line reads STATUS, binds the read data to its name, stays on the program until its bit is
as it waits for, and changes nothing else. -/
def Obligations.WaitLinesRepeat : Prop :=
  ∀ (s : State) (dest : Option Nat), s.fault = none →
    (∃ t, hostLine (.waitDone dest) s = .next t ∧
      t.hostProgram = (if s.done then s.hostProgram else .waitDone dest :: s.hostProgram) ∧
      t.rdata = statusWord s ∧ t.temps = namesWith dest t.rdata s.temps ∧
      t = { s with rdata := t.rdata, temps := t.temps, hostProgram := t.hostProgram } ∧
      t.rdata.getLsbD 1 = s.done ∧ t.phase = s.phase ∧ t.mem = s.mem ∧ t.done = s.done) ∧
    (∃ t, hostLine (.waitIdle dest) s = .next t ∧
      t.hostProgram = (if s.phase = .idle then s.hostProgram else .waitIdle dest :: s.hostProgram) ∧
      t.rdata = statusWord s ∧ t.temps = namesWith dest t.rdata s.temps ∧
      t = { s with rdata := t.rdata, temps := t.temps, hostProgram := t.hostProgram } ∧
      t.rdata.getLsbD 0 = decide (s.phase ≠ .idle) ∧ t.phase = s.phase ∧ t.mem = s.mem ∧ t.done = s.done)

/-! ## Host register reads -/

/-- 44_entry_and_host.md R140. -/
def Obligations.RdCtrlReturnsZero : Prop :=
  decodeHost 0x00#6 0 = .rdCtrl ∧
    ∀ s : State, s.fault = none → exec .rdCtrl s = .next { s with rdata := 0 }

/-- 44_entry_and_host.md R142 and 10_state.md R24: bit 0 is BUSY, bit 1 is DONE, the rest read 0, and reading changes
nothing; where DONE is 1 only while idle, one of the three values 0, 1 and 2 is returned. -/
def Obligations.RdStatusReturnsDoneAndBusy : Prop :=
  decodeHost 0x01#6 0 = .rdStatus ∧
    ∀ s : State, s.fault = none → ∃ v : Word, exec .rdStatus s = .next { s with rdata := v } ∧
      v.getLsbD 0 = decide (s.phase ≠ .idle) ∧ v.getLsbD 1 = s.done ∧ (∀ i, 2 ≤ i → v.getLsbD i = false) ∧
      ((s.done = true → s.phase = .idle) → v = 0 ∨ v = 1 ∨ v = 2)

/-- 44_entry_and_host.md R144, R146, R148: the arguments, never the cursors. -/
def Obligations.RdArgumentsReturnTheRegisters : Prop :=
  decodeHost 0x02#6 0 = .rdSrc ∧ decodeHost 0x03#6 0 = .rdDst ∧ decodeHost 0x04#6 0 = .rdLen ∧
    ∀ s : State, s.fault = none →
      exec .rdSrc s = .next { s with rdata := s.src } ∧ exec .rdDst s = .next { s with rdata := s.dst } ∧
        exec .rdLen s = .next { s with rdata := s.len }

/-- 44_entry_and_host.md R150, R152: the registers, which hold 0 after reset and which no operation but FINISH
changes. -/
def Obligations.RdEndCursorsReturnTheRegisters : Prop :=
  decodeHost 0x05#6 0 = .rdSrcEnd ∧ decodeHost 0x06#6 0 = .rdDstEnd ∧
    (∀ s : State, s.fault = none →
      exec .rdSrcEnd s = .next { s with rdata := s.srcEnd } ∧
        exec .rdDstEnd s = .next { s with rdata := s.dstEnd }) ∧
    (∀ c : Config, (State.resetWith c).srcEnd = 0 ∧ (State.resetWith c).dstEnd = 0) ∧
    ∀ (i : Instr) (s t : State), exec i s = .next t → i ≠ .finish → t.srcEnd = s.srcEnd ∧ t.dstEnd = s.dstEnd

/-- 44_entry_and_host.md R154 with the fields of 10_state.md R30. -/
def Obligations.RdConfigReturnsTheBuild : Prop :=
  decodeHost 0x07#6 0 = .rdConfig ∧
    ∀ s : State, s.fault = none → ∃ v : Word, exec .rdConfig s = .next { s with rdata := v } ∧
      v.extractLsb' 0 8 = (match s.config.maxBatch with | .b32 => 0x20#8 | .b16 => 0x10#8) ∧
      v.getLsbD 8 = decide (s.config.tableMode = .synth) ∧ v.extractLsb' 9 7 = 0#7 ∧
      v.extractLsb' 16 8 = (match s.config.addrW with | .w32 => 0x20#8 | .w64 => 0x40#8) ∧
      v.extractLsb' 24 40 = 0#40

/-- 44_entry_and_host.md R156: both reserved read rows return 0, for every descriptor 0x08 to 0x1F. -/
def Obligations.RdReservedReturnsZero : Prop :=
  (∀ desc : BitVec 6, 0x08 ≤ desc.toNat → desc.toNat ≤ 0x1F →
    decodeHost desc 0 = .rdRsvd8 (desc.extractLsb' 0 5) ∨ decodeHost desc 0 = .rdRsvd16 (desc.extractLsb' 0 5)) ∧
  ∀ (s : State) (idx : BitVec 5), s.fault = none →
    exec (.rdRsvd8 idx) s = .next { s with rdata := 0 } ∧ exec (.rdRsvd16 idx) s = .next { s with rdata := 0 }

/-! ## Host register writes -/

/-- 44_entry_and_host.md R143, R151, R153, R155, R157: these writes are ignored; no operation but START clears DONE,
and none changes the build options. -/
def Obligations.ReadOnlyAndReservedWritesAreIgnored : Prop :=
  (∀ w : Word, decodeHost 0x21#6 w = .wrStatus w ∧ decodeHost 0x25#6 w = .wrSrcEnd w ∧
    decodeHost 0x26#6 w = .wrDstEnd w ∧ decodeHost 0x27#6 w = .wrConfig w) ∧
  (∀ (desc : BitVec 6) (w : Word), 0x28 ≤ desc.toNat →
    decodeHost desc w = .wrRsvd8 (desc.extractLsb' 0 5) w ∨
      decodeHost desc w = .wrRsvd16 (desc.extractLsb' 0 5) w) ∧
  (∀ (s : State) (w : Word) (idx : BitVec 5), s.fault = none →
    exec (.wrStatus w) s = .next s ∧ exec (.wrSrcEnd w) s = .next s ∧ exec (.wrDstEnd w) s = .next s ∧
      exec (.wrConfig w) s = .next s ∧ exec (.wrRsvd8 idx w) s = .next s ∧ exec (.wrRsvd16 idx w) s = .next s) ∧
  ∀ (i : Instr) (s t : State), exec i s = .next t → t.config = s.config ∧
    (s.done = true → t.done = false → ∃ w, i = .wrCtrl w ∧ w.getLsbD 0 = true ∧ s.phase = .idle)

/-- 44_entry_and_host.md R145, R147, R149: while idle the register takes the low ADDR_W bits, zero-extended; while
busy the write is ignored. -/
def Obligations.ArgumentWritesOnlyWhileIdle : Prop :=
  ∀ (s : State) (w v : Word), s.fault = none →
    v = (match s.config.addrW with | .w32 => (w.extractLsb' 0 32).setWidth 64 | .w64 => w) →
    decodeHost 0x22#6 w = .wrSrc w ∧ decodeHost 0x23#6 w = .wrDst w ∧ decodeHost 0x24#6 w = .wrLen w ∧
      exec (.wrSrc w) s = .next (if s.phase = .idle then { s with src := v } else s) ∧
      exec (.wrDst w) s = .next (if s.phase = .idle then { s with dst := v } else s) ∧
      exec (.wrLen w) s = .next (if s.phase = .idle then { s with len := v } else s)

/-- 44_entry_and_host.md R131, R141, with 60_exceptions.md R161 and R166 (a): bit 0 written while idle is a START; it
raises UB(PRECOND_WRAP) before UB(PRECOND_OVERLAP), or latches the arguments, clears DONE and enters the first phase;
every other write of CTRL changes nothing. The model's own: that raising is a next state in which nothing but FAULT
changes (log 13), and what the job keeps of memory, `m` (log 12). -/
def Obligations.WrCtrlStartsAJobOrNothing : Prop :=
  ∀ (s : State) (w : Word), s.fault = none → RegistersFit s →
    decodeHost 0x20#6 w = .wrCtrl w ∧
    ∃ m : Memory, exec (.wrCtrl w) s = .next
      (if w.getLsbD 0 = true ∧ s.phase = .idle then
        if ¬(s.src.toNat + s.len.toNat ≤ 2 ^ addrBits s.config ∧
            s.dst.toNat + 2 * s.len.toNat ≤ 2 ^ addrBits s.config) then
          { s with fault := some (.precondWrap s.src s.dst s.len) }
        else if ¬(s.len.toNat = 0 ∨ s.src.toNat + s.len.toNat ≤ s.dst.toNat ∨
            s.dst.toNat + 2 * s.len.toNat ≤ s.src.toNat) then
          { s with fault := some (.precondOverlap s.src s.dst s.len) }
        else
          { s with
            job := some { src := s.src, dst := s.dst, len := s.len, memAtStart := m }
            rs := s.src, wd := s.dst, rem := s.len, done := false
            phase :=
              if s.len.toNat = 0 then .finish
              else if s.len.toNat = 1 then .fast1
              else nextPhase s.config s.len.toNat }
      else s)

/-- 41_bulk.md R97: the next phase is the largest configured batch that still fits, REM for 1 to 7 bytes, FINISH for
none. -/
def Obligations.NextPhaseIsTheLargestBatch : Prop :=
  ∀ (c : Config) (r : Nat),
    (nextPhase c r = .bulk32 ↔ c.maxBatch = .b32 ∧ 32 ≤ r) ∧
      (nextPhase c r = .bulk16 ↔ 16 ≤ r ∧ (c.maxBatch = .b16 ∨ r < 32)) ∧
      (nextPhase c r = .bulk8 ↔ 8 ≤ r ∧ r < 16) ∧ (nextPhase c r = .rem ↔ 1 ≤ r ∧ r ≤ 7) ∧
      (nextPhase c r = .finish ↔ r = 0)

/-! ## Engine steps -/

/-- 41_bulk.md R100, R101, R102: a bulk step whose guard holds and whose events the memory admits encodes its batch,
moves the cursors and goes to the next phase; it writes no flag and not SCALAR or CHARS. -/
def Obligations.BulkStepsEncodeTheirBatch : Prop :=
  ∀ (s : State) (p : Phase) (b : Nat) (i : Instr),
    (p, b, i) ∈ [(Phase.bulk32, 32, Instr.bulk32), (Phase.bulk16, 16, Instr.bulk16),
      (Phase.bulk8, 8, Instr.bulk8)] →
    s.fault = none → s.phase = p → b ≤ s.rem.toNat → (b = 32 → s.config.maxBatch = .b32) →
    s.mem.wf = true →
    (∀ k < b, readable s.config (portAddr s.config s.rs k) = true) →
    (∀ k < 2 * b, writable s.config (portAddr s.config s.wd k) = true) →
    decodePhase p.code = i ∧
      ∃ t, exec i s = .next t ∧ EncodesAtCursors s t b ∧ t.phase = nextPhase s.config (s.rem.toNat - b) ∧
        t.scalar = s.scalar ∧ t.chars = s.chars

/-- 42_remainder.md R115 with R110, R112 and R113: the REM step of R bytes, 1 to 7, encodes exactly R bytes; SCALAR
holds them with zeros above, CHARS their characters and then the characters of the zeros. -/
def Obligations.RemStepEncodesTheRemainder : Prop :=
  ∀ s : State, s.fault = none → s.phase = .rem → 1 ≤ s.rem.toNat → s.rem.toNat ≤ 7 → s.mem.wf = true →
    (∀ k < s.rem.toNat, readable s.config (portAddr s.config s.rs k) = true) →
    (∀ k < 2 * s.rem.toNat, writable s.config (portAddr s.config s.wd k) = true) →
    decodePhase 0b101#3 = .rem ∧
      ∃ t, exec .rem s = .next t ∧ EncodesAtCursors s t s.rem.toNat ∧ t.phase = .finish ∧
        (∀ k < 8, t.scalar.extractLsb' (8 * k) 8 =
          if k < s.rem.toNat then s.mem.read (portAddr s.config s.rs k) else 0#8) ∧
        (∀ j < 16, t.chars.extractLsb' (8 * j) 8 =
          if j < 2 * s.rem.toNat then t.mem.read (portAddr s.config s.wd j) else digit 0#4)

/-- 43_fast_path.md R125: the single-byte step. -/
def Obligations.Fast1EncodesOneByte : Prop :=
  ∀ s : State, s.fault = none → s.phase = .fast1 → s.rem.toNat = 1 → s.mem.wf = true →
    readable s.config (portAddr s.config s.rs 0) = true →
    writable s.config (portAddr s.config s.wd 0) = true →
    writable s.config (portAddr s.config s.wd 1) = true →
    decodePhase 0b001#3 = .fast1 ∧
      ∃ t, exec .fast1 s = .next t ∧ EncodesAtCursors s t 1 ∧ t.phase = .finish ∧
        t.scalar = s.scalar ∧ t.chars = s.chars

/-- 43_fast_path.md R126 (an inference the spec draws itself): FAST1 and a REM step of one byte leave the same memory
and the same cursors. -/
def Obligations.Fast1EqualsRemOfOneByte : Prop :=
  ∀ s : State, s.fault = none → s.phase = .fast1 → s.rem.toNat = 1 →
    readable s.config (portAddr s.config s.rs 0) = true →
    writable s.config (portAddr s.config s.wd 0) = true →
    writable s.config (portAddr s.config s.wd 1) = true →
    ∃ t u, exec .fast1 s = .next t ∧ exec .rem { s with phase := .rem } = .next u ∧
      t.mem = u.mem ∧ t.rs = u.rs ∧ t.wd = u.wd ∧ t.rem = u.rem ∧ t.phase = u.phase

/-- 44_entry_and_host.md R132: FINISH reports the end cursors, sets DONE and goes idle, with no memory event. SCALAR and
CHARS are left open, as 10_state.md R33 leaves them between jobs (log 5). -/
def Obligations.FinishReportsTheEndCursors : Prop :=
  ∀ s : State, s.fault = none → s.phase = .finish → s.rem.toNat = 0 → RegistersFit s →
    decodePhase 0b110#3 = .finish ∧
      ∃ sc ch n, exec .finish s = .next { s with
        srcEnd := s.rs, dstEnd := s.wd, done := true, phase := .idle, scalar := sc, chars := ch, draws := n }

/-- 44_entry_and_host.md section 1 and 60_exceptions.md R176: the idle engine waits and every register keeps its value.
That its turn answers the same state is the model's choice (log 8). -/
def Obligations.IdleKeepsEverything : Prop :=
  ∀ s : State, s.fault = none → s.phase = .idle →
    decodePhase 0b000#3 = .idle ∧ exec .idle s = .next s

/-- 30_encoding.md R67: a model that finds the reserved PHASE code refuses and makes no step. -/
def Obligations.ReservedPhaseIsRefused : Prop :=
  ∀ s : State, s.fault = none → s.phase = .rsvd7 →
    decodePhase 0b111#3 = .rsvd7 ∧ exec .rsvd7 s = .refused .reservedPhase

/-- 30_encoding.md section 2 (R67, an inference the spec draws itself): no transition, of the host, of the engine or of
a reset, enters the reserved PHASE code. -/
def Obligations.StepNeverEntersTheReservedPhase : Prop :=
  ∀ s t : State, s.phase ≠ .rsvd7 → step s = .next t → t.phase ≠ .rsvd7

/-- 41_bulk.md section 2 (the guards of R98, the spec's own inference, and its last sentence): a step whose guard is
false is refused. -/
def Obligations.FalseGuardsAreRefused : Prop :=
  ∀ s : State, s.fault = none →
    (s.phase = .bulk32 → (s.rem.toNat < 32 ∨ s.config.maxBatch ≠ .b32) →
      exec .bulk32 s = .refused (.guardFalse .bulk32)) ∧
    (s.phase = .bulk16 → s.rem.toNat < 16 → exec .bulk16 s = .refused (.guardFalse .bulk16)) ∧
    (s.phase = .bulk8 → s.rem.toNat < 8 → exec .bulk8 s = .refused (.guardFalse .bulk8)) ∧
    (s.phase = .rem → (s.rem.toNat = 0 ∨ 7 < s.rem.toNat) → exec .rem s = .refused (.guardFalse .rem)) ∧
    (s.phase = .finish → s.rem.toNat ≠ 0 → exec .finish s = .refused (.guardFalse .finish))

/-- 60_exceptions.md section 1 (R163): where the memory does not admit one event of the step PHASE selects, the engine's
step changes nothing, and with no turn listed the host moves on. That it answers the same state is the model's choice
(log 7), the order of turns too (log 9). -/
def Obligations.StuckEngineWaits : Prop :=
  ∀ s : State, s.fault = none → phaseGuard s s.phase = true →
    ((∃ k < phaseBytes s s.phase, readable s.config (portAddr s.config s.rs k) = false) ∨
      (∃ k < 2 * phaseBytes s s.phase, writable s.config (portAddr s.config s.wd k) = false)) →
    exec (engineInstr s) s = .next s ∧ (s.turns = [] → s.hostProgram ≠ [] → nextTurn s = .host)

/-! ## Undefined behaviour and host memory accesses -/

/-- 60_exceptions.md section 1 (R160): once FAULT is set no agent has an enabled step, a reset does not clear it and
lets no agent move, and the state is no end of a run. That every operation, host turn and engine turn answers the outcome
fault is the model's choice (log 13). -/
def Obligations.SetFaultStopsEveryAgent : Prop :=
  ∀ (s : State) (r : UB), s.fault = some r →
    (∀ i : Instr, exec i s = .fault (.ub r)) ∧
      (nextTurn s = .host → step s = .fault (.ub r)) ∧ (nextTurn s = .engine → step s = .fault (.ub r)) ∧
      (∀ t, step s = .next t → t.fault = some r ∧ t.hostProgram = s.hostProgram ∧ t.temps = s.temps ∧
        t.rdata = s.rdata ∧ t.history = s.history) ∧ ¬ s.final

/-- 70_reset_and_hazards.md R187: while a job runs, a host write to its source or destination and a host read of its
destination raise UB(RACE); a host read of its source is allowed and binds the byte memory holds. The model's own: that
raising is a next state in which nothing but FAULT changes (log 13), that the byte arrives zero-extended (log 17), and
that a memory line reaches data memory at an address of the register window too (log 23). -/
def Obligations.HostAccessToRunningBuffersRaces : Prop :=
  ∀ (s : State) (j : Job) (a : Nat) (b : Byte) (dest : Option Nat),
    s.fault = none → s.phase ≠ .idle → s.job = some j →
    ((j.dst.toNat ≤ a ∧ a < j.dst.toNat + 2 * j.len.toNat) →
      hostLine (.memRead a dest) s = .next { s with fault := some (.race a .read) }) ∧
    ((j.dst.toNat ≤ a ∧ a < j.dst.toNat + 2 * j.len.toNat) ∨
        (j.src.toNat ≤ a ∧ a < j.src.toNat + j.len.toNat) →
      hostLine (.memWrite a b) s = .next { s with fault := some (.race a .write) }) ∧
    ((j.src.toNat ≤ a ∧ a < j.src.toNat + j.len.toNat) →
      ¬(j.dst.toNat ≤ a ∧ a < j.dst.toNat + 2 * j.len.toNat) → readable s.config a = true →
      hostLine (.memRead a dest) s =
        .next { s with temps := namesWith dest ((s.mem.read a).setWidth 64) s.temps })

/-- 00_scope.md R8: a host memory access outside a running job's buffers has its effect. The model's own: that the byte
read arrives zero-extended (log 17), that an access the platform does not admit is refused (log 19), and that a memory
line reaches data memory at an address of the register window too (log 23). -/
def Obligations.HostAccessOutsideBuffersCompletes : Prop :=
  ∀ (s : State) (a : Nat) (b : Byte) (k : Nat), s.fault = none → s.mem.wf = true →
    (s.phase = .idle ∨ ∀ j, s.job = some j →
      ¬(j.dst.toNat ≤ a ∧ a < j.dst.toNat + 2 * j.len.toNat) ∧
        ¬(j.src.toNat ≤ a ∧ a < j.src.toNat + j.len.toNat)) →
    (readable s.config a = true →
      hostLine (.memRead a (some k)) s =
        .next { s with temps := (k, (s.mem.read a).setWidth 64) :: s.temps }) ∧
    (writable s.config a = true → ∃ t, hostLine (.memWrite a b) s = .next t ∧
      (∀ x, t.mem.read x = if x = a then b else s.mem.read x) ∧ t = { s with mem := t.mem }) ∧
    (readable s.config a = false → hostLine (.memRead a (some k)) s = .refused (.hostMemory a .read)) ∧
    (writable s.config a = false → hostLine (.memWrite a b) s = .refused (.hostMemory a .write))

/-! ## Reset -/

/-- 70_reset_and_hazards.md R181: the reset state of every register the spec gives one, for every configuration. -/
def Obligations.ResetStateHasTheSpecValues : Prop :=
  ∀ c : Config, ∃ s, s = State.resetWith c ∧ s.phase = .idle ∧ s.done = false ∧ s.src = 0 ∧ s.dst = 0 ∧
    s.len = 0 ∧ s.srcEnd = 0 ∧ s.dstEnd = 0 ∧ s.rs = 0 ∧ s.wd = 0 ∧ s.rem = 0 ∧ s.fault = none ∧
    s.config = c ∧ State.reset = State.resetWith Config.standard

/-- 70_reset_and_hazards.md R180, R181: a reset is one transition available at every state; the registers take their
reset values; FAULT, HISTORY, the parameters and (between jobs) data memory are unchanged. SCALAR and CHARS are left
open, as the rule leaves them. That the host's program, names and read data stay is the model's choice (log 10); of the
turn resetLost (log 20), LostAccessLetsTheHostGoOn says what becomes of the host's side. -/
def Obligations.ResetTurnResetsTheBlock : Prop :=
  ∀ s : State, (nextTurn s = .reset ∨ nextTurn s = .resetLost) →
    ∃ t, step s = .next t ∧ t.phase = .idle ∧ t.done = false ∧ t.src = 0 ∧ t.dst = 0 ∧ t.len = 0 ∧
      t.srcEnd = 0 ∧ t.dstEnd = 0 ∧ t.rs = 0 ∧ t.wd = 0 ∧ t.rem = 0 ∧ t.config = s.config ∧
      t.fault = s.fault ∧ t.history = s.history ∧ (s.phase = .idle → t.mem = s.mem) ∧
      (nextTurn s = .reset → t.hostProgram = s.hostProgram ∧ t.temps = s.temps ∧ t.rdata = s.rdata)

/-- 70_reset_and_hazards.md R183: a reset during a job, with or without an access lost in its cycle (60_exceptions.md
R166 (c); log 20), leaves each destination byte with its value before the job or the job's output byte, and every byte
outside the destination as it was; the end cursors do not report the job. Which of the two is free (log 6). -/
def Obligations.ResetDuringAJobLeavesOldOrNewBytes : Prop :=
  ∀ (s : State) (j : Job), (nextTurn s = .reset ∨ nextTurn s = .resetLost) → s.phase ≠ .idle → s.job = some j →
    s.mem.wf = true → ∃ t, step s = .next t ∧ t.srcEnd = 0 ∧ t.dstEnd = 0 ∧
      (∀ i < j.len.toNat,
        (t.mem.read (j.dst.toNat + 2 * i) = j.memAtStart.read (j.dst.toNat + 2 * i) ∨
          t.mem.read (j.dst.toNat + 2 * i) =
            digit ((j.memAtStart.read (j.src.toNat + i)).extractLsb' 4 4)) ∧
        (t.mem.read (j.dst.toNat + 2 * i + 1) = j.memAtStart.read (j.dst.toNat + 2 * i + 1) ∨
          t.mem.read (j.dst.toNat + 2 * i + 1) =
            digit ((j.memAtStart.read (j.src.toNat + i)).extractLsb' 0 4))) ∧
      (∀ a, (a < j.dst.toNat ∨ j.dst.toNat + 2 * j.len.toNat ≤ a) → t.mem.read a = s.mem.read a)

/-- 60_exceptions.md section 2 (R166 (c)): a register access in the cycle of a reset may be lost: it does nothing to the
block, which is reset. The model's own (log 20): the host goes on after it, a lost read's name holds an open value, a wait
line reads again, and a lost access is not looked at, so that a bad window access is lost too. -/
def Obligations.LostAccessLetsTheHostGoOn : Prop :=
  ∀ (s : State) (op : HostOp) (rest : List HostOp),
    nextTurn s = .resetLost → s.fault = none → s.hostProgram = op :: rest →
    ∃ t v, step s = .next t ∧ t.phase = .idle ∧ t.done = false ∧ t.src = 0 ∧ t.dst = 0 ∧ t.len = 0 ∧
      t.fault = none ∧ t.history = s.history ∧ t.rdata = s.rdata ∧
      match op with
      | .reg desc _ dest =>
        t.hostProgram = rest ∧ t.temps = if desc.getLsbD 5 then s.temps else namesWith dest v s.temps
      | .windowRead _ _ dest => t.hostProgram = rest ∧ t.temps = namesWith dest v s.temps
      | .windowWrite _ _ => t.hostProgram = rest ∧ t.temps = s.temps
      | .waitDone _ => t.hostProgram = op :: rest ∧ t.temps = s.temps
      | .waitIdle _ => t.hostProgram = op :: rest ∧ t.temps = s.temps
      | .memRead _ _ => t.hostProgram = op :: rest ∧ t.temps = s.temps
      | .memWrite _ _ => t.hostProgram = op :: rest ∧ t.temps = s.temps

/-! ## Interleaving -/

/-- 44_entry_and_host.md R158: a STATUS read in the cycle of a FINISH returns 1 when it is ordered first and 2 when
FINISH is; both orders are turns of the model (log 9). -/
def Obligations.StatusReadAroundFinishHasBothOrders : Prop :=
  ∀ (s : State) (k : Nat), s.fault = none → s.phase = .finish → s.done = false → s.rem.toNat = 0 →
    s.hostProgram = [.reg 0x01#6 (.lit 0) (some k)] →
    (s.turns = [.host, .engine] →
      ∃ t, runSteps 2 s = .next t ∧ lookupTemp k t.temps = some 1 ∧ t.phase = .idle ∧ t.done = true) ∧
    (s.turns = [.engine, .host] →
      ∃ t, runSteps 2 s = .next t ∧ lookupTemp k t.temps = some 2 ∧ t.phase = .idle ∧ t.done = true)

/-! ## Rules of the whole machine -/

/-- 44_entry_and_host.md section 2 and 20_memory.md R40: no host register access performs a memory event; none but
WR_CTRL changes PHASE, DONE, the cursors, the job or FAULT. -/
def Obligations.HostAccessesTouchNoMemory : Prop :=
  ∀ (i : Instr) (s t : State), isHostAccess i = true → exec i s = .next t →
    t.mem = s.mem ∧ t.history = s.history ∧ t.srcEnd = s.srcEnd ∧ t.dstEnd = s.dstEnd ∧ t.scalar = s.scalar ∧
      t.chars = s.chars ∧ t.config = s.config ∧
      ((∀ w, i ≠ .wrCtrl w) → t.phase = s.phase ∧ t.done = s.done ∧ t.rs = s.rs ∧ t.wd = s.wd ∧ t.rem = s.rem ∧
        t.job = s.job ∧ t.fault = s.fault)

/-- 10_state.md R25 to R29: an engine step never changes SRC, DST or LEN, nor the host's side, the job or FAULT; only
FINISH writes SRC_END, DST_END and DONE. -/
def Obligations.EngineStepsKeepTheArguments : Prop :=
  ∀ (i : Instr) (s t : State), isHostAccess i = false → exec i s = .next t →
    t.src = s.src ∧ t.dst = s.dst ∧ t.len = s.len ∧ t.job = s.job ∧ t.fault = s.fault ∧ t.config = s.config ∧
      t.rdata = s.rdata ∧ t.hostProgram = s.hostProgram ∧ t.temps = s.temps ∧ t.turns = s.turns ∧
      (i ≠ .finish → t.srcEnd = s.srcEnd ∧ t.dstEnd = s.dstEnd ∧ t.done = s.done) ∧
      (i ≠ .rem → i ≠ .finish → t.scalar = s.scalar ∧ t.chars = s.chars)

/-- 20_memory.md R43: in a sound state an engine step leaves every byte outside the running job's destination
unchanged, and its events read only the job's source and write only its destination. -/
def Obligations.EngineStaysInsideTheJobBuffers : Prop :=
  ∀ s t : State, MemoryCanonical s → RegistersFit s → SequencerSound s → nextTurn s = .engine →
    step s = .next t →
    (∀ a, (a < s.dst.toNat ∨ s.dst.toNat + 2 * s.len.toNat ≤ a) → t.mem.read a = s.mem.read a) ∧
      ∃ new, t.history = s.history ++ new ∧
        (∀ ev ∈ new, ∀ c ∈ ev.reads, s.src.toNat ≤ c.1 ∧ c.1 < s.src.toNat + s.len.toNat) ∧
        (∀ ev ∈ new, ∀ c ∈ ev.writes, s.dst.toNat ≤ c.1 ∧ c.1 < s.dst.toNat + 2 * s.len.toNat)

/-- 00_scope.md R6 and 20_memory.md R40: no step changes the parameters, and HISTORY only grows. -/
def Obligations.ConfigIsConstantAndHistoryGrows : Prop :=
  ∀ s t : State, step s = .next t → t.config = s.config ∧ s.history <+: t.history

/-! ## Invariants -/

/-- Every step keeps memory canonical (the model's own form of memory, log 4). -/
def Obligations.StepKeepsMemoryCanonical : Prop :=
  ∀ s t : State, MemoryCanonical s → step s = .next t → MemoryCanonical t

/-- 10_state.md R31: every step keeps the address and count registers inside ADDR_W bits. -/
def Obligations.StepKeepsRegistersFit : Prop :=
  ∀ s t : State, RegistersFit s → step s = .next t → RegistersFit t

/-- 10_state.md R24 and R32, 41_bulk.md R98, 30_encoding.md R67 (inferences the spec draws itself): every step keeps
the sequencer sound: DONE only while idle, no reserved phase, true guards, cursors that follow the job. -/
def Obligations.StepKeepsSequencerSound : Prop :=
  ∀ s t : State, RegistersFit s → SequencerSound s → step s = .next t → SequencerSound t

/-- 44_entry_and_host.md section 1 and 70_reset_and_hazards.md R187: whatever the host does between engine steps, a
running job's encoded bytes stand, and its source and the rest of its destination are as at its start. -/
def Obligations.StepKeepsJobDataSound : Prop :=
  ∀ s t : State, MemoryCanonical s → RegistersFit s → SequencerSound s → JobDataSound s → step s = .next t →
    JobDataSound t

/-- The four invariants hold right after reset, in every configuration. -/
def Obligations.ResetMeetsTheInvariants : Prop :=
  ∀ c : Config, MemoryCanonical (State.resetWith c) ∧ RegistersFit (State.resetWith c) ∧
    SequencerSound (State.resetWith c) ∧ JobDataSound (State.resetWith c)

/-! ## Jobs -/

/-- 44_entry_and_host.md section 1 (the job contract R130 and the step bound R136, inferences the spec draws itself):
a started job ends within `n div 8 + 2` engine steps; every destination byte is the digit of its nibble; no other byte
has changed; the end cursors are `src + n` and `dst + 2n`, modulo 2^ADDR_W (log 14). -/
def Obligations.JobWritesTheHexOfItsSource : Prop :=
  ∀ s : State, ReadyToStart s → ∃ u, JobEndsIn s u ∧ u.final ∧ u.done = true ∧
    (∀ i < s.len.toNat,
      u.mem.read (s.dst.toNat + 2 * i) = digit ((s.mem.read (s.src.toNat + i)).extractLsb' 4 4) ∧
        u.mem.read (s.dst.toNat + 2 * i + 1) = digit ((s.mem.read (s.src.toNat + i)).extractLsb' 0 4)) ∧
    (∀ a, (a < s.dst.toNat ∨ s.dst.toNat + 2 * s.len.toNat ≤ a) → u.mem.read a = s.mem.read a) ∧
    u.srcEnd.toNat = (s.src.toNat + s.len.toNat) % 2 ^ addrBits s.config ∧
    u.dstEnd.toNat = (s.dst.toNat + 2 * s.len.toNat) % 2 ^ addrBits s.config ∧
    u.src = s.src ∧ u.dst = s.dst ∧ u.len = s.len

/-- 44_entry_and_host.md section 1 (R135, an inference the spec draws itself): the data phases of a job. -/
def Obligations.JobVisitsItsPhaseSequence : Prop :=
  ∀ s : State, ReadyToStart s → ∃ u new, JobEndsIn s u ∧ u.history = s.history ++ new ∧
    new.map StepEvents.phase = jobPhases s.config s.len.toNat

/-- 20_memory.md R46: a job's events read each source byte once and write each destination byte once, and nothing
else; in which order they stand in HISTORY is left open. -/
def Obligations.JobTouchesEachBufferByteOnce : Prop :=
  ∀ s : State, ReadyToStart s → ∃ u new, JobEndsIn s u ∧ u.history = s.history ++ new ∧
    (new.flatMap StepEvents.reads).Perm
      ((List.range s.len.toNat).map fun i => (s.src.toNat + i, s.mem.read (s.src.toNat + i))) ∧
    (new.flatMap StepEvents.writes).Perm
      ((List.range (2 * s.len.toNat)).map fun i => (s.dst.toNat + i, u.mem.read (s.dst.toNat + i)))

/-- 00_scope.md section 4 and 41_bulk.md section 1 (R94, an inference the spec draws itself): MAX_BATCH changes no output
and no end cursor. -/
def Obligations.MaxBatchChangesNoOutput : Prop :=
  ∀ (s : State) (b : MaxBatch), ReadyToStart s →
    ∃ u u', JobEndsIn s u ∧ JobEndsIn { s with config := { s.config with maxBatch := b } } u' ∧
      u.mem = u'.mem ∧ u.srcEnd = u'.srcEnd ∧ u.dstEnd = u'.dstEnd ∧ u.done = u'.done

/-- 44_entry_and_host.md section 1 (R138, an inference the spec draws itself): two chained jobs over adjacent
sub-buffers leave the memory and the end cursors of the one job over the joined source. -/
def Obligations.ChainedJobsEqualOneJob : Prop :=
  ∀ (s : State) (n₁ n₂ : Word), n₁.toNat + n₂.toNat < 2 ^ 64 → ReadyToStart { s with len := n₁ + n₂ } →
    ∃ u v w, JobEndsIn { s with len := n₁ } u ∧
      JobEndsIn { u with src := u.srcEnd, dst := u.dstEnd, len := n₂ } v ∧
      JobEndsIn { s with len := n₁ + n₂ } w ∧
      v.mem = w.mem ∧ v.srcEnd = w.srcEnd ∧ v.dstEnd = w.dstEnd

/-! ## Tables and the transform -/

/-- 40_tables.md section 1: the closed form of LUT16. The numeric codes are the ASCII standard's, which the spec takes
from general knowledge (00_scope.md R11; log 22). -/
def Obligations.DigitHasItsClosedForm : Prop :=
  ∀ k : Nibble, digit k = if k.toNat ≤ 9 then BitVec.ofNat 8 (0x30 + k.toNat) else BitVec.ofNat 8 (0x57 + k.toNat)

/-- 40_tables.md section 2 (the law of R83, an inference the spec draws itself): a LUT256 entry packs the high nibble's
character below the low nibble's. -/
def Obligations.PairPacksTheTwoDigits : Prop :=
  ∀ b : Byte, (pair b).extractLsb' 0 8 = digit ((b >>> 4).setWidth 4) ∧
    (pair b).extractLsb' 8 8 = digit ((b &&& 0xF).setWidth 4)

/-- 41_bulk.md section 1 (R94, an inference the spec draws itself): the transform of a joined string is the joined
transforms. -/
def Obligations.TransformIsBatchIndependent : Prop :=
  ∀ x y : List Byte, xform (x ++ y) = xform x ++ xform y

/-- 95_test_vectors.md L1.1: the output determines the source, so a decoder exists. -/
def Obligations.TransformLosesNothing : Prop :=
  ∀ x y : List Byte, xform x = xform y → x = y
end

