-- ==== Sys2Proof/Laws/Memory.lean ====
section
/-! SUPPORT. The laws of data memory: read after write, the canonical form is kept, and two canonical memories that
read the same are the same list. -/

namespace Sys2Proof.Machine

@[simp] theorem Memory.wfFrom_nil (lo : Nat) : Memory.wfFrom lo [] = true := rfl

theorem Memory.wfFrom_cons {lo a : Nat} {b : Byte} {m : Memory} :
    Memory.wfFrom lo ((a, b) :: m) = true ↔ lo ≤ a ∧ b ≠ unlistedByte ∧ Memory.wfFrom (a + 1) m = true := by
  simp [Memory.wfFrom, and_assoc]

theorem Memory.wfFrom_mono {lo lo' : Nat} (h : lo' ≤ lo) :
    ∀ {m : Memory}, Memory.wfFrom lo m = true → Memory.wfFrom lo' m = true
  | [], _ => rfl
  | (_, _) :: _, hm => by
    obtain ⟨ha, hb, ht⟩ := Memory.wfFrom_cons.mp hm
    exact Memory.wfFrom_cons.mpr ⟨le_trans h ha, hb, ht⟩

/-- Below the first listed address everything is unlisted. -/
theorem Memory.read_below :
    ∀ {m : Memory} {lo a : Nat}, Memory.wfFrom lo m = true → a < lo → m.read a = unlistedByte
  | [], _, _, _, _ => rfl
  | (a', b') :: m, lo, a, hm, h => by
    obtain ⟨ha, -, ht⟩ := Memory.wfFrom_cons.mp hm
    have hne : a ≠ a' := by omega
    simp only [Memory.read, if_neg hne]
    exact Memory.read_below ht (by omega)

theorem Memory.wfFrom_write :
    ∀ {m : Memory} {lo a : Nat} {b : Byte}, Memory.wfFrom lo m = true → lo ≤ a →
      Memory.wfFrom lo (m.write a b) = true
  | [], lo, a, b, _, h => by
    by_cases hb : b = unlistedByte <;> simp [Memory.write, Memory.wfFrom, hb, h]
  | (a', b') :: m, lo, a, b, hm, h => by
    obtain ⟨ha, hb', ht⟩ := Memory.wfFrom_cons.mp hm
    unfold Memory.write
    split_ifs with h1 h2 h3 h4
    · exact hm
    · exact Memory.wfFrom_cons.mpr ⟨h, h2, Memory.wfFrom_cons.mpr ⟨by omega, hb', ht⟩⟩
    · exact Memory.wfFrom_mono (by omega) ht
    · exact Memory.wfFrom_cons.mpr ⟨h, h4, by subst h3; exact ht⟩
    · exact Memory.wfFrom_cons.mpr ⟨ha, hb', Memory.wfFrom_write ht (by omega)⟩

theorem Memory.read_write_from :
    ∀ {m : Memory} {lo a : Nat} {b : Byte}, Memory.wfFrom lo m = true → ∀ x,
      (m.write a b).read x = if x = a then b else m.read x
  | [], _, a, b, _, x => by
    by_cases hb : b = unlistedByte <;> by_cases hx : x = a <;> simp [Memory.write, Memory.read, hb, hx]
  | (a', b') :: m, lo, a, b, hm, x => by
    obtain ⟨-, -, ht⟩ := Memory.wfFrom_cons.mp hm
    unfold Memory.write
    split_ifs with h1 h2 h3 h4 h5 h6 h7 h8
    · subst h3
      rw [h2]
      have hne : x ≠ a' := by omega
      simp only [Memory.read, if_neg hne]
      exact Memory.read_below ht (by omega)
    · rfl
    · simp [Memory.read, h4]
    · simp [Memory.read, h4]
    · subst h5
      rw [h6, h7]
      exact Memory.read_below ht (by omega)
    · have : x ≠ a' := by omega
      simp [Memory.read, this]
    · simp [Memory.read, h8]
    · have : x ≠ a' := by omega
      simp [Memory.read, this, h8]
    · subst ‹x = a›
      simp only [Memory.read, if_neg ‹¬x = a'›]
      rw [Memory.read_write_from ht, if_pos rfl]
    · simp only [Memory.read]
      rw [Memory.read_write_from ht, if_neg ‹¬x = a›]

/-- A write keeps the canonical form. -/
theorem Memory.wf_write {m : Memory} (h : m.wf = true) (a : Nat) (b : Byte) : (m.write a b).wf = true :=
  Memory.wfFrom_write h (Nat.zero_le _)

/-- Read after write (20_memory.md R52). -/
theorem Memory.read_write {m : Memory} (h : m.wf = true) (a : Nat) (b : Byte) (x : Nat) :
    (m.write a b).read x = if x = a then b else m.read x :=
  Memory.read_write_from h x

/-- A list of writes keeps the canonical form. -/
theorem Memory.wf_store : ∀ (cells : List Host.Cell) {m : Memory}, m.wf = true → (m.store cells).wf = true
  | [], _, h => h
  | (a, b) :: cells, _, h => Memory.wf_store cells (Memory.wf_write h a b)

/-- A list of writes leaves every address it does not name alone. -/
theorem Memory.read_store_of_notMem : ∀ (cells : List Host.Cell) {m : Memory} {x : Nat}, m.wf = true →
    x ∉ cells.map Prod.fst → (m.store cells).read x = m.read x
  | [], _, _, _, _ => rfl
  | (a, b) :: cells, m, x, h, hx => by
    simp only [List.map_cons, List.mem_cons, not_or] at hx
    simp only [Memory.store]
    rw [Memory.read_store_of_notMem cells (Memory.wf_write h a b) hx.2, Memory.read_write h, if_neg hx.1]

/-- A list of writes to distinct addresses leaves each address with its byte. -/
theorem Memory.read_store_of_mem : ∀ (cells : List Host.Cell) {m : Memory} {x : Nat} {b : Byte}, m.wf = true →
    (cells.map Prod.fst).Nodup → (x, b) ∈ cells → (m.store cells).read x = b
  | [], _, _, _, _, _, hx => by simp at hx
  | (a, b') :: cells, m, x, b, h, hd, hx => by
    simp only [List.map_cons, List.nodup_cons] at hd
    simp only [Memory.store]
    rcases List.mem_cons.mp hx with heq | hx
    · obtain ⟨rfl, rfl⟩ := Prod.mk.inj heq
      rw [Memory.read_store_of_notMem cells (Memory.wf_write h x b) hd.1, Memory.read_write h, if_pos rfl]
    · exact Memory.read_store_of_mem cells (Memory.wf_write h a b') hd.2 hx

theorem Memory.ext_from : ∀ {m m' : Memory} {lo : Nat}, Memory.wfFrom lo m = true → Memory.wfFrom lo m' = true →
    (∀ x, m.read x = m'.read x) → m = m'
  | [], [], _, _, _, _ => rfl
  | [], (a, b) :: m', lo, _, hm', h => by
    obtain ⟨-, hb, -⟩ := Memory.wfFrom_cons.mp hm'
    have := h a
    simp only [Memory.read, if_pos] at this
    exact absurd this.symm hb
  | (a, b) :: m, [], lo, hm, _, h => by
    obtain ⟨-, hb, -⟩ := Memory.wfFrom_cons.mp hm
    have := h a
    simp only [Memory.read, if_pos] at this
    exact absurd this hb
  | (a, b) :: m, (a', b') :: m', lo, hm, hm', h => by
    obtain ⟨-, hb, ht⟩ := Memory.wfFrom_cons.mp hm
    obtain ⟨-, hb', ht'⟩ := Memory.wfFrom_cons.mp hm'
    have haa : a = a' := by
      rcases Nat.lt_trichotomy a a' with hlt | heq | hgt
      · have := h a
        simp only [Memory.read, if_pos, if_neg (Nat.ne_of_lt hlt)] at this
        rw [Memory.read_below ht' (by omega)] at this
        exact absurd this hb
      · exact heq
      · have := h a'
        simp only [Memory.read, if_pos, if_neg (Nat.ne_of_lt hgt)] at this
        rw [Memory.read_below ht (by omega)] at this
        exact absurd this.symm hb'
    subst haa
    have hbb : b = b' := by simpa [Memory.read] using h a
    subst hbb
    congr 1
    refine Memory.ext_from ht ht' fun x => ?_
    by_cases hx : x = a
    · subst hx
      rw [Memory.read_below ht (by omega), Memory.read_below ht' (by omega)]
    · simpa [Memory.read, hx] using h x

/-- Two canonical memories that read the same are the same data. -/
theorem Memory.ext_of_wf {m m' : Memory} (h : m.wf = true) (h' : m'.wf = true) (hr : ∀ x, m.read x = m'.read x) :
    m = m' :=
  Memory.ext_from h h' hr

end Sys2Proof.Machine
end

