-- ==== Sys2Proof/Laws/Tables.lean ====
section
/-! SUPPORT. The laws of the datapath: what the batch transform puts at each output position, how packed values give
their bytes back, and that the remainder path and the fast path write the batch transform of their bytes. -/

namespace Sys2Proof.Machine

@[simp] theorem xform_length : ∀ bs : List Byte, (xform bs).length = 2 * bs.length
  | [] => rfl
  | _ :: bs => by
    simp only [xform, List.length_cons, xform_length bs]
    omega

/-- Output position 2i holds the character of input byte i's high nibble (41_bulk.md R92). -/
theorem xform_getElem?_even : ∀ (bs : List Byte) (i : Nat),
    (xform bs)[2 * i]? = bs[i]?.map fun b => (laneChars b).1
  | [], i => by simp [xform]
  | b :: bs, 0 => by simp [xform]
  | b :: bs, i + 1 => by
    rw [show 2 * (i + 1) = 2 * i + 1 + 1 by omega]
    simp only [xform, List.getElem?_cons_succ]
    exact xform_getElem?_even bs i

/-- Output position 2i+1 holds the character of input byte i's low nibble (41_bulk.md R92). -/
theorem xform_getElem?_odd : ∀ (bs : List Byte) (i : Nat),
    (xform bs)[2 * i + 1]? = bs[i]?.map fun b => (laneChars b).2
  | [], i => by simp [xform]
  | b :: bs, 0 => by simp [xform]
  | b :: bs, i + 1 => by
    rw [show 2 * (i + 1) + 1 = 2 * i + 1 + 1 + 1 by omega]
    simp only [xform, List.getElem?_cons_succ]
    exact xform_getElem?_odd bs i

theorem packNat_lt : ∀ bs : List Byte, packNat bs < 256 ^ bs.length
  | [] => by simp [packNat]
  | b :: bs => by
    have hb := b.isLt
    have := packNat_lt bs
    simp only [packNat, List.length_cons, Nat.pow_succ]
    omega

theorem packNat_shift : ∀ (bs : List Byte) (k : Nat), packNat bs / 256 ^ k % 256 = (bs.getD k 0).toNat
  | [], k => by simp [packNat]
  | b :: bs, 0 => by
    have hb := b.isLt
    simp only [packNat, Nat.pow_zero, Nat.div_one, List.getD_cons_zero]
    omega
  | b :: bs, k + 1 => by
    have hb := b.isLt
    have : packNat (b :: bs) / 256 ^ (k + 1) = packNat bs / 256 ^ k := by
      rw [Nat.pow_succ', ← Nat.div_div_eq_div_mul]
      congr 1
      simp only [packNat]
      omega
    rw [this, packNat_shift bs k, List.getD_cons_succ]

/-- Byte k of a packed byte string is its byte k, and 0 beyond it (20_memory.md R42, 42_remainder.md R110). -/
theorem byteOf_pack {w : Nat} (bs : List Byte) {k : Nat} (h : 8 * (k + 1) ≤ w) :
    byteOf (pack w bs) k = bs.getD k 0 := by
  apply BitVec.eq_of_toNat_eq
  rw [← packNat_shift]
  simp only [byteOf, pack, BitVec.extractLsb'_toNat, BitVec.toNat_ofNat, Nat.shiftRight_eq_div_pow]
  rw [show (256 : Nat) = 2 ^ 8 from rfl, ← Nat.pow_mul,
    show w = 8 * k + (w - 8 * k) by omega, Nat.pow_add, Nat.mod_mul_right_div_self,
    Nat.mod_mod_of_dvd _ (Nat.pow_dvd_pow 2 (by omega))]

@[simp] theorem bytesOf_length {w : Nat} (v : BitVec w) (n : Nat) : (bytesOf v n).length = n := by
  simp [bytesOf]

/-- The bytes of a packed byte string that fits are the byte string, filled up with zeros. -/
theorem bytesOf_pack {w : Nat} (bs : List Byte) {n : Nat} (h : 8 * n ≤ w) :
    bytesOf (pack w bs) n = (List.range n).map fun k => bs.getD k 0 := by
  refine List.map_congr_left fun k hk => ?_
  have := List.mem_range.mp hk
  exact byteOf_pack bs (by omega)

/-- The characters a REM step stores are the batch transform of its bytes (42_remainder.md R118). -/
theorem selectChars_transformScalar (bs : List Byte) (h : bs.length ≤ 8) :
    selectChars (transformScalar (pack 64 bs)) bs.length = xform bs := by
  apply List.ext_getElem?
  intro j
  simp only [selectChars, transformScalar]
  rw [bytesOf_pack (w := 64) bs (by norm_num), bytesOf_pack (w := 128) _ (by omega)]
  rcases Nat.even_or_odd' j with ⟨i, rfl | rfl⟩
  · by_cases hi : i < bs.length
    · have h2 : 2 * i < 2 * bs.length := by omega
      have h8 : i < 8 := by omega
      rw [List.getElem?_map, List.getElem?_range h2, Option.map_some, List.getD_eq_getElem?_getD,
        xform_getElem?_even, xform_getElem?_even, List.getElem?_map, List.getElem?_range h8]
      simp [List.getElem?_eq_getElem hi]
    · rw [xform_getElem?_even, List.getElem?_eq_none (by omega : bs.length ≤ i),
        List.getElem?_eq_none (by simp; omega)]
      rfl
  · by_cases hi : i < bs.length
    · have h2 : 2 * i + 1 < 2 * bs.length := by omega
      have h8 : i < 8 := by omega
      rw [List.getElem?_map, List.getElem?_range h2, Option.map_some, List.getD_eq_getElem?_getD,
        xform_getElem?_odd, xform_getElem?_odd, List.getElem?_map, List.getElem?_range h8]
      simp [List.getElem?_eq_getElem hi]
    · rw [xform_getElem?_odd, List.getElem?_eq_none (by omega : bs.length ≤ i),
        List.getElem?_eq_none (by simp; omega)]
      rfl

@[simp] theorem selectChars_length (chars : BitVec 128) (r : Nat) : (selectChars chars r).length = 2 * r := by
  simp [selectChars]

/-- The two bytes of a LUT256 entry, in address order, are the batch transform of its index (40_tables.md R83,
41_bulk.md R93). -/
theorem fastBytes_eq_xform (b : Byte) : fastBytes b = xform [b] := by
  revert b
  decide

end Sys2Proof.Machine
end

