-- ==== Sys2Proof/Laws/Ops.lean ====
section
/-! SUPPORT. One law per shared operation: the arithmetic of cursors, the memory port, the wrappers of a meaning
(what they answer, and what a next state says), the precondition check and the store of a data step. -/

namespace Sys2Proof.Machine

/-! ## Cursor arithmetic -/

theorem addrBits_cases (c : Config) : addrBits c = 32 ∨ addrBits c = 64 := by
  unfold addrBits
  cases c.addrW <;> simp

theorem addrSpace_le (c : Config) : 2 ^ addrBits c ≤ 2 ^ 64 := by
  rcases addrBits_cases c with h | h
  · rw [h]
    norm_num
  · rw [h]

theorem addrSpace_ge (c : Config) : 2 ^ 32 ≤ 2 ^ addrBits c := by
  rcases addrBits_cases c with h | h
  · rw [h]
  · rw [h]
    norm_num

theorem portAddr_lt (c : Config) (a : Word) (k : Nat) : portAddr c a k < 2 ^ addrBits c :=
  Nat.mod_lt _ (by positivity)

theorem portAddr_eq {c : Config} {a : Word} {k : Nat} (h : a.toNat + k < 2 ^ addrBits c) :
    portAddr c a k = a.toNat + k :=
  Nat.mod_eq_of_lt h

@[simp] theorem truncAddr_toNat (c : Config) (v : Word) : (truncAddr c v).toNat = v.toNat % 2 ^ addrBits c := by
  simp only [truncAddr, BitVec.toNat_ofNat]
  exact Nat.mod_eq_of_lt (lt_of_lt_of_le (Nat.mod_lt _ (by positivity)) (addrSpace_le c))

theorem truncAddr_of_lt {c : Config} {v : Word} (h : v.toNat < 2 ^ addrBits c) : truncAddr c v = v := by
  apply BitVec.eq_of_toNat_eq
  rw [truncAddr_toNat, Nat.mod_eq_of_lt h]

@[simp] theorem advance_toNat (c : Config) (a : Word) (k : Nat) :
    (advance c a k).toNat = (a.toNat + k) % 2 ^ addrBits c := by
  simp only [advance, BitVec.toNat_ofNat]
  exact Nat.mod_eq_of_lt (lt_of_lt_of_le (portAddr_lt c a k) (addrSpace_le c))

/-! ## The memory port -/

theorem readsAdmitted_iff {c : Config} {a : Word} {n : Nat} :
    readsAdmitted c a n = true ↔ ∀ k < n, readable c (portAddr c a k) = true := by
  simp [readsAdmitted, List.all_eq_true]

theorem writesAdmitted_iff {c : Config} {a : Word} {n : Nat} :
    writesAdmitted c a n = true ↔ ∀ k < n, writable c (portAddr c a k) = true := by
  simp [writesAdmitted, List.all_eq_true]

theorem admitted_iff {s : State} {n : Nat} :
    admitted s n = true ↔ (∀ k < n, readable s.config (portAddr s.config s.rs k) = true) ∧
      ∀ k < 2 * n, writable s.config (portAddr s.config s.wd k) = true := by
  simp [admitted, readsAdmitted_iff, writesAdmitted_iff]

@[simp] theorem readBytes_length (c : Config) (m : Memory) (a : Word) (n : Nat) :
    (readBytes c m a n).length = n := by
  simp [readBytes]

theorem readBytes_getElem? (c : Config) (m : Memory) (a : Word) {n i : Nat} (h : i < n) :
    (readBytes c m a n)[i]? = some (m.read (portAddr c a i)) := by
  simp [readBytes, List.getElem?_map, List.getElem?_range h]

theorem writeCells_map_fst (c : Config) (a : Word) : ∀ (j : Nat) (ys : List Byte),
    (writeCells c a j ys).map Prod.fst = (List.range' j ys.length).map (portAddr c a)
  | _, [] => rfl
  | j, _ :: ys => by
    simp only [writeCells, List.map_cons, List.length_cons, List.range'_succ]
    rw [writeCells_map_fst c a (j + 1) ys]

theorem writeCells_mem (c : Config) (a : Word) : ∀ (j : Nat) (ys : List Byte) (i : Nat) (b : Byte),
    ys[i]? = some b → (portAddr c a (j + i), b) ∈ writeCells c a j ys
  | _, [], _, _, h => by simp at h
  | j, y :: ys, 0, b, h => by
    simp only [List.getElem?_cons_zero, Option.some.injEq] at h
    simp [writeCells, h]
  | j, y :: ys, i + 1, b, h => by
    simp only [List.getElem?_cons_succ] at h
    have := writeCells_mem c a (j + 1) ys i b h
    simp only [writeCells]
    rw [show j + (i + 1) = j + 1 + i by omega]
    exact List.mem_cons_of_mem _ this

theorem portAddr_inj {c : Config} {a : Word} {i j : Nat} (hi : i < 2 ^ addrBits c) (hj : j < 2 ^ addrBits c)
    (h : portAddr c a i = portAddr c a j) : i = j := by
  have hm : a.toNat + i ≡ a.toNat + j [MOD 2 ^ addrBits c] := h
  have := Nat.ModEq.add_left_cancel' _ hm
  rwa [Nat.ModEq, Nat.mod_eq_of_lt hi, Nat.mod_eq_of_lt hj] at this

theorem writeCells_nodup (c : Config) (a : Word) (ys : List Byte) (h : ys.length ≤ 2 ^ addrBits c) :
    ((writeCells c a 0 ys).map Prod.fst).Nodup := by
  rw [writeCells_map_fst]
  refine List.Nodup.map_on (fun x hx y hy hxy => ?_) List.nodup_range'
  simp only [List.mem_range'_1] at hx hy
  exact portAddr_inj (c := c) (a := a) (by omega) (by omega) hxy

/-- Storing at a cursor puts each byte at its place. -/
theorem read_store_writeCells {c : Config} {a : Word} {ys : List Byte} {m : Memory} (hm : m.wf = true)
    (hl : ys.length ≤ 2 ^ addrBits c) {i : Nat} {b : Byte} (hi : ys[i]? = some b) :
    (m.store (writeCells c a 0 ys)).read (portAddr c a i) = b := by
  refine Memory.read_store_of_mem _ hm (writeCells_nodup c a ys hl) ?_
  simpa using writeCells_mem c a 0 ys i b hi

/-- Storing at a cursor leaves every other address alone. -/
theorem read_store_writeCells_other {c : Config} {a : Word} {ys : List Byte} {m : Memory} (hm : m.wf = true)
    {x : Nat} (hx : ∀ i < ys.length, portAddr c a i ≠ x) :
    (m.store (writeCells c a 0 ys)).read x = m.read x := by
  refine Memory.read_store_of_notMem _ hm ?_
  rw [writeCells_map_fst]
  simp only [List.mem_map, List.mem_range'_1, not_exists, not_and]
  intro i hi
  exact hx i (by omega)

theorem writeCells_getElem? (c : Config) (a : Word) : ∀ (ys : List Byte) (j i : Nat),
    (writeCells c a j ys)[i]? = ys[i]?.map fun y => (portAddr c a (j + i), y)
  | [], j, i => by simp [writeCells]
  | y :: ys, j, 0 => by simp [writeCells]
  | y :: ys, j, i + 1 => by
    simp only [writeCells, List.getElem?_cons_succ, writeCells_getElem? c a ys]
    rw [show j + 1 + i = j + (i + 1) by omega]

/-- The write events of a store name the addresses in order, with the bytes memory then holds. -/
theorem writeCells_eq {c : Config} {a : Word} {ys : List Byte} {m : Memory} (hm : m.wf = true)
    (hl : ys.length ≤ 2 ^ addrBits c) :
    writeCells c a 0 ys = (List.range ys.length).map fun j =>
      (portAddr c a j, (m.store (writeCells c a 0 ys)).read (portAddr c a j)) := by
  apply List.ext_getElem?
  intro j
  rw [writeCells_getElem?]
  by_cases hj : j < ys.length
  · have h2 := List.getElem?_eq_getElem hj
    rw [List.getElem?_map, List.getElem?_range hj, h2]
    simp only [Option.map_some, Nat.zero_add]
    rw [read_store_writeCells hm hl h2]
  · rw [List.getElem?_eq_none (by omega), List.getElem?_eq_none (by simp; omega)]
    rfl

/-! ## Preconditions -/

theorem noWrap_iff {c : Config} {src dst len : Word} :
    noWrap c src dst len = true ↔
      src.toNat + len.toNat ≤ 2 ^ addrBits c ∧ dst.toNat + 2 * len.toNat ≤ 2 ^ addrBits c := by
  simp [noWrap]

theorem noOverlap_iff {src dst len : Word} :
    noOverlap src dst len = true ↔
      len.toNat = 0 ∨ src.toNat + len.toNat ≤ dst.toNat ∨ dst.toNat + 2 * len.toNat ≤ src.toNat := by
  simp [noOverlap]

theorem preconditionFailure_eq_none {c : Config} {src dst len : Word} :
    preconditionFailure c src dst len = none ↔ noWrap c src dst len = true ∧ noOverlap src dst len = true := by
  unfold preconditionFailure
  cases noWrap c src dst len <;> cases noOverlap src dst len <;> simp

/-- START either raises a UB reason and changes nothing else, or starts the job. -/
theorem start_cases (s : State) :
    (∃ r, preconditionFailure s.config s.src s.dst s.len = some r ∧ start s = raiseUB r s) ∨
      (preconditionFailure s.config s.src s.dst s.len = none ∧ start s = startJob s) := by
  unfold start
  cases h : preconditionFailure s.config s.src s.dst s.len with
  | some r => exact .inl ⟨r, rfl, rfl⟩
  | none => exact .inr ⟨rfl, rfl⟩

/-! ## What the wrappers of a meaning answer -/

theorem hostEnabled_of_none {s : State} (h : s.fault = none) (k : Host.Outcome State Fault Refusal) :
    hostEnabled s k = k := by
  simp [hostEnabled, h]

theorem hostEnabled_next {s t : State} {k : Host.Outcome State Fault Refusal} (h : hostEnabled s k = .next t) :
    s.fault = none ∧ k = .next t := by
  unfold hostEnabled at h
  split at h
  · cases h
  · exact ⟨by assumption, h⟩

theorem engineEnabled_of {s : State} {p : Phase} (h : s.fault = none) (hp : s.phase = p)
    (k : Host.Outcome State Fault Refusal) : engineEnabled p s k = k := by
  simp [engineEnabled, h, hp]

theorem engineEnabled_next {s t : State} {p : Phase} {k : Host.Outcome State Fault Refusal}
    (h : engineEnabled p s k = .next t) : s.fault = none ∧ s.phase = p ∧ k = .next t := by
  unfold engineEnabled at h
  split at h
  · cases h
  · split at h
    · exact ⟨by assumption, by assumption, h⟩
    · cases h

/-- A data step that answers a next state made its effect, or waits because the memory does not admit it. -/
theorem guardedData_next {s t u : State} {p : Phase} {n : Nat} (h : guardedData p n u s = .next t) :
    phaseGuard s p = true ∧ ((admitted s n = true ∧ t = u) ∨ (admitted s n = false ∧ t = s)) := by
  unfold guardedData at h
  split at h
  · refine ⟨by assumption, ?_⟩
    split at h
    · cases h
      exact .inl ⟨by assumption, rfl⟩
    · cases h
      exact .inr ⟨by simpa using ‹¬admitted s n = true›, rfl⟩
  · cases h

theorem guardedData_of {s u : State} {p : Phase} {n : Nat} (hg : phaseGuard s p = true)
    (ha : admitted s n = true) : guardedData p n u s = .next u := by
  simp [guardedData, hg, ha]

theorem guardedData_stuck {s u : State} {p : Phase} {n : Nat} (hg : phaseGuard s p = true)
    (ha : admitted s n = false) : guardedData p n u s = .next s := by
  simp [guardedData, hg, ha, stuckStep]

theorem andThen_next {o : Host.Outcome State Fault Refusal} {f : State → State} {t : State}
    (h : andThen o f = .next t) : ∃ u, o = .next u ∧ t = f u := by
  cases o with
  | next u => exact ⟨u, rfl, by simpa [andThen] using h.symm⟩
  | fault r => cases h
  | refused r => cases h

/-! ## The sequencer -/

/-- The batch multiplexer never answers IDLE, FAST1 or the reserved code, and its guard holds (41_bulk.md R97, R98). -/
theorem nextPhase_cases (c : Config) (r : Nat) :
    (nextPhase c r = .bulk32 ∧ 32 ≤ r ∧ c.maxBatch = .b32) ∨ (nextPhase c r = .bulk16 ∧ 16 ≤ r) ∨
      (nextPhase c r = .bulk8 ∧ 8 ≤ r ∧ r < 16) ∨ (nextPhase c r = .rem ∧ 1 ≤ r ∧ r ≤ 7) ∨
      (nextPhase c r = .finish ∧ r = 0) := by
  unfold nextPhase
  split_ifs with h1 h2 h3 h4
  · exact .inl ⟨rfl, h1.2, h1.1⟩
  · exact .inr (.inl ⟨rfl, h2⟩)
  · exact .inr (.inr (.inl ⟨rfl, h3, by omega⟩))
  · exact .inr (.inr (.inr (.inl ⟨rfl, h4, by omega⟩)))
  · exact .inr (.inr (.inr (.inr ⟨rfl, by omega⟩)))

theorem entryPhase_cases (c : Config) (n : Nat) :
    (entryPhase c n = .finish ∧ n = 0) ∨ (entryPhase c n = .fast1 ∧ n = 1) ∨
      (entryPhase c n = nextPhase c n ∧ 2 ≤ n) := by
  unfold entryPhase
  split_ifs with h1 h2
  · exact .inl ⟨rfl, h1⟩
  · exact .inr (.inl ⟨rfl, h2⟩)
  · exact .inr (.inr ⟨rfl, by omega⟩)

@[simp] theorem Phase.ofCode_code (p : Phase) : Phase.ofCode p.code = p := by
  cases p <;> rfl

/-- The operation PHASE selects, phase by phase (30_encoding.md R66). -/
theorem engineInstr_eq (s : State) :
    engineInstr s = match s.phase with
      | .idle => .idle
      | .fast1 => .fast1
      | .bulk32 => .bulk32
      | .bulk16 => .bulk16
      | .bulk8 => .bulk8
      | .rem => .rem
      | .finish => .finish
      | .rsvd7 => .rsvd7 := by
  unfold engineInstr
  cases s.phase <;> rfl

/-! ## The flags -/

/-- Bit 0 of the STATUS word is BUSY, bit 1 DONE, every other bit 0 (10_state.md R24). -/
theorem statusWord_getLsbD (s : State) (i : Nat) :
    (statusWord s).getLsbD i = if i = 0 then busy s else if i = 1 then s.done else false := by
  unfold statusWord
  rcases i with _ | _ | i
  · cases busy s <;> cases s.done <;> rfl
  · cases busy s <;> cases s.done <;> rfl
  · rw [BitVec.getLsbD_append, BitVec.getLsbD_append]
    simp

/-- The same of the word's bits by index. -/
theorem statusWord_getElem (s : State) {i : Nat} (h : i < 64) :
    (statusWord s)[i] = if i = 0 then busy s else if i = 1 then s.done else false := by
  rw [← BitVec.getLsbD_eq_getElem, statusWord_getLsbD]

theorem argOperand_w32 {c : Config} (h : c.addrW = .w32) (w : Word) :
    argOperand c w = (w.extractLsb' 0 32).setWidth 64 := by
  apply BitVec.eq_of_toNat_eq
  have hb : addrBits c = 32 := by simp [addrBits, h]
  simp only [argOperand, truncAddr_toNat, hb, BitVec.toNat_setWidth, BitVec.extractLsb'_toNat, Nat.shiftRight_zero]
  omega

theorem argOperand_w64 {c : Config} (h : c.addrW = .w64) (w : Word) : argOperand c w = w :=
  truncAddr_of_lt (by rw [show addrBits c = 64 by simp [addrBits, h]]; exact w.isLt)

/-! ## Host memory accesses -/

theorem busy_iff {s : State} : busy s = true ↔ s.phase ≠ .idle := by
  simp [busy]

theorem races_of_job {s : State} {j : Job} (hp : s.phase ≠ .idle) (hj : s.job = some j) (a : Nat)
    (kind : AccessKind) :
    races s a kind = true ↔ (j.dst.toNat ≤ a ∧ a < j.dst.toNat + 2 * j.len.toNat) ∨
      (kind = .write ∧ j.src.toNat ≤ a ∧ a < j.src.toNat + j.len.toNat) := by
  simp only [races, hj, busy_iff.mpr hp, Bool.true_and, Bool.or_eq_true, Bool.and_eq_true, decide_eq_true_eq]

theorem races_of_idle {s : State} (hp : s.phase = .idle) (a : Nat) (kind : AccessKind) :
    races s a kind = false := by
  cases hj : s.job <;> simp [races, hj, busy, hp]

end Sys2Proof.Machine
end

