-- ==== Sys2Proof/Laws/PerInstr.lean ====
section
/-! SUPPORT. One statement per constructor of Instr: a well-formed operation's code lies in its row of the opcode map
(30_encoding.md R69). -/

namespace Sys2Proof.Laws

/-- The code of a well-formed operation lies in the space of its row, matches it, and the row is one of the opcode
map's (30_encoding.md R69). -/
def EncodesInItsRow.Statement (i : Instr) : Prop :=
  i.wellFormed = true →
    (encode i).space = (rowOf i).space ∧ (rowOf i).accepts (encode i).value = true ∧
      rowOf i ∈ hostRows ++ phaseRows

theorem EncodesInItsRow.rdCtrl : EncodesInItsRow.Statement .rdCtrl := fun _ => by decide

theorem EncodesInItsRow.wrCtrl (wdata : Word) : EncodesInItsRow.Statement (.wrCtrl wdata) := fun _ =>
  ⟨rfl, by simp [rowOf, encode, Row.accepts, Code.value], by simp [rowOf, hostRows]⟩

theorem EncodesInItsRow.rdStatus : EncodesInItsRow.Statement .rdStatus := fun _ => by decide

theorem EncodesInItsRow.wrStatus (wdata : Word) : EncodesInItsRow.Statement (.wrStatus wdata) := fun _ =>
  ⟨rfl, by simp [rowOf, encode, Row.accepts, Code.value], by simp [rowOf, hostRows]⟩

theorem EncodesInItsRow.rdSrc : EncodesInItsRow.Statement .rdSrc := fun _ => by decide

theorem EncodesInItsRow.wrSrc (wdata : Word) : EncodesInItsRow.Statement (.wrSrc wdata) := fun _ =>
  ⟨rfl, by simp [rowOf, encode, Row.accepts, Code.value], by simp [rowOf, hostRows]⟩

theorem EncodesInItsRow.rdDst : EncodesInItsRow.Statement .rdDst := fun _ => by decide

theorem EncodesInItsRow.wrDst (wdata : Word) : EncodesInItsRow.Statement (.wrDst wdata) := fun _ =>
  ⟨rfl, by simp [rowOf, encode, Row.accepts, Code.value], by simp [rowOf, hostRows]⟩

theorem EncodesInItsRow.rdLen : EncodesInItsRow.Statement .rdLen := fun _ => by decide

theorem EncodesInItsRow.wrLen (wdata : Word) : EncodesInItsRow.Statement (.wrLen wdata) := fun _ =>
  ⟨rfl, by simp [rowOf, encode, Row.accepts, Code.value], by simp [rowOf, hostRows]⟩

theorem EncodesInItsRow.rdSrcEnd : EncodesInItsRow.Statement .rdSrcEnd := fun _ => by decide

theorem EncodesInItsRow.wrSrcEnd (wdata : Word) : EncodesInItsRow.Statement (.wrSrcEnd wdata) := fun _ =>
  ⟨rfl, by simp [rowOf, encode, Row.accepts, Code.value], by simp [rowOf, hostRows]⟩

theorem EncodesInItsRow.rdDstEnd : EncodesInItsRow.Statement .rdDstEnd := fun _ => by decide

theorem EncodesInItsRow.wrDstEnd (wdata : Word) : EncodesInItsRow.Statement (.wrDstEnd wdata) := fun _ =>
  ⟨rfl, by simp [rowOf, encode, Row.accepts, Code.value], by simp [rowOf, hostRows]⟩

theorem EncodesInItsRow.rdConfig : EncodesInItsRow.Statement .rdConfig := fun _ => by decide

theorem EncodesInItsRow.wrConfig (wdata : Word) : EncodesInItsRow.Statement (.wrConfig wdata) := fun _ =>
  ⟨rfl, by simp [rowOf, encode, Row.accepts, Code.value], by simp [rowOf, hostRows]⟩

theorem EncodesInItsRow.rdRsvd8 (idx : BitVec 5) : EncodesInItsRow.Statement (.rdRsvd8 idx) := by
  revert idx
  unfold EncodesInItsRow.Statement
  decide

theorem EncodesInItsRow.rdRsvd16 (idx : BitVec 5) : EncodesInItsRow.Statement (.rdRsvd16 idx) := by
  revert idx
  unfold EncodesInItsRow.Statement
  decide

theorem EncodesInItsRow.wrRsvd8 (idx : BitVec 5) (wdata : Word) :
    EncodesInItsRow.Statement (.wrRsvd8 idx wdata) := fun h =>
  ⟨rfl, by revert h; simp only [Instr.wellFormed, encode, rowOf, Code.value]; revert idx; decide,
    by simp [rowOf, hostRows]⟩

theorem EncodesInItsRow.wrRsvd16 (idx : BitVec 5) (wdata : Word) :
    EncodesInItsRow.Statement (.wrRsvd16 idx wdata) := fun h =>
  ⟨rfl, by revert h; simp only [Instr.wellFormed, encode, rowOf, Code.value]; revert idx; decide,
    by simp [rowOf, hostRows]⟩

theorem EncodesInItsRow.idle : EncodesInItsRow.Statement .idle := fun _ => by decide

theorem EncodesInItsRow.fast1 : EncodesInItsRow.Statement .fast1 := fun _ => by decide

theorem EncodesInItsRow.bulk32 : EncodesInItsRow.Statement .bulk32 := fun _ => by decide

theorem EncodesInItsRow.bulk16 : EncodesInItsRow.Statement .bulk16 := fun _ => by decide

theorem EncodesInItsRow.bulk8 : EncodesInItsRow.Statement .bulk8 := fun _ => by decide

theorem EncodesInItsRow.rem : EncodesInItsRow.Statement .rem := fun _ => by decide

theorem EncodesInItsRow.finish : EncodesInItsRow.Statement .finish := fun _ => by decide

theorem EncodesInItsRow.rsvd7 : EncodesInItsRow.Statement .rsvd7 := fun _ => by decide

end Sys2Proof.Laws
end

