-- ==== Sys2Proof/Laws/State.lean ====
section
/-! SUPPORT. What each named update of the state does to each field, one lemma per field and update. -/

namespace Sys2Proof.Machine

/-! ## raiseUB -/

@[simp] theorem raiseUB_config (r : UB) (s : State) : (raiseUB r s).config = s.config := rfl
@[simp] theorem raiseUB_src (r : UB) (s : State) : (raiseUB r s).src = s.src := rfl
@[simp] theorem raiseUB_dst (r : UB) (s : State) : (raiseUB r s).dst = s.dst := rfl
@[simp] theorem raiseUB_len (r : UB) (s : State) : (raiseUB r s).len = s.len := rfl
@[simp] theorem raiseUB_srcEnd (r : UB) (s : State) : (raiseUB r s).srcEnd = s.srcEnd := rfl
@[simp] theorem raiseUB_dstEnd (r : UB) (s : State) : (raiseUB r s).dstEnd = s.dstEnd := rfl
@[simp] theorem raiseUB_done (r : UB) (s : State) : (raiseUB r s).done = s.done := rfl
@[simp] theorem raiseUB_phase (r : UB) (s : State) : (raiseUB r s).phase = s.phase := rfl
@[simp] theorem raiseUB_rs (r : UB) (s : State) : (raiseUB r s).rs = s.rs := rfl
@[simp] theorem raiseUB_wd (r : UB) (s : State) : (raiseUB r s).wd = s.wd := rfl
@[simp] theorem raiseUB_rem (r : UB) (s : State) : (raiseUB r s).rem = s.rem := rfl
@[simp] theorem raiseUB_scalar (r : UB) (s : State) : (raiseUB r s).scalar = s.scalar := rfl
@[simp] theorem raiseUB_chars (r : UB) (s : State) : (raiseUB r s).chars = s.chars := rfl
@[simp] theorem raiseUB_mem (r : UB) (s : State) : (raiseUB r s).mem = s.mem := rfl
@[simp] theorem raiseUB_fault (r : UB) (s : State) : (raiseUB r s).fault = some r := rfl
@[simp] theorem raiseUB_history (r : UB) (s : State) : (raiseUB r s).history = s.history := rfl
@[simp] theorem raiseUB_job (r : UB) (s : State) : (raiseUB r s).job = s.job := rfl
@[simp] theorem raiseUB_rdata (r : UB) (s : State) : (raiseUB r s).rdata = s.rdata := rfl
@[simp] theorem raiseUB_hostProgram (r : UB) (s : State) : (raiseUB r s).hostProgram = s.hostProgram := rfl
@[simp] theorem raiseUB_temps (r : UB) (s : State) : (raiseUB r s).temps = s.temps := rfl
@[simp] theorem raiseUB_turns (r : UB) (s : State) : (raiseUB r s).turns = s.turns := rfl
@[simp] theorem raiseUB_draws (r : UB) (s : State) : (raiseUB r s).draws = s.draws := rfl

/-! ## startJob -/

@[simp] theorem startJob_config (s : State) : (startJob s).config = s.config := rfl
@[simp] theorem startJob_src (s : State) : (startJob s).src = s.src := rfl
@[simp] theorem startJob_dst (s : State) : (startJob s).dst = s.dst := rfl
@[simp] theorem startJob_len (s : State) : (startJob s).len = s.len := rfl
@[simp] theorem startJob_srcEnd (s : State) : (startJob s).srcEnd = s.srcEnd := rfl
@[simp] theorem startJob_dstEnd (s : State) : (startJob s).dstEnd = s.dstEnd := rfl
@[simp] theorem startJob_done (s : State) : (startJob s).done = false := rfl
@[simp] theorem startJob_phase (s : State) : (startJob s).phase = entryPhase s.config s.len.toNat := rfl
@[simp] theorem startJob_rs (s : State) : (startJob s).rs = truncAddr s.config s.src := rfl
@[simp] theorem startJob_wd (s : State) : (startJob s).wd = truncAddr s.config s.dst := rfl
@[simp] theorem startJob_rem (s : State) : (startJob s).rem = truncAddr s.config s.len := rfl
@[simp] theorem startJob_scalar (s : State) : (startJob s).scalar = s.scalar := rfl
@[simp] theorem startJob_chars (s : State) : (startJob s).chars = s.chars := rfl
@[simp] theorem startJob_mem (s : State) : (startJob s).mem = s.mem := rfl
@[simp] theorem startJob_fault (s : State) : (startJob s).fault = s.fault := rfl
@[simp] theorem startJob_history (s : State) : (startJob s).history = s.history := rfl
@[simp] theorem startJob_job (s : State) :
    (startJob s).job = some { src := s.src, dst := s.dst, len := s.len, memAtStart := s.mem } := rfl
@[simp] theorem startJob_rdata (s : State) : (startJob s).rdata = s.rdata := rfl
@[simp] theorem startJob_hostProgram (s : State) : (startJob s).hostProgram = s.hostProgram := rfl
@[simp] theorem startJob_temps (s : State) : (startJob s).temps = s.temps := rfl
@[simp] theorem startJob_turns (s : State) : (startJob s).turns = s.turns := rfl
@[simp] theorem startJob_draws (s : State) : (startJob s).draws = s.draws := rfl

/-! ## dataStep -/

@[simp] theorem dataStep_config (s : State) (n : Nat) (out : List Byte) (p : Phase) :
    (dataStep s n out p).config = s.config := rfl
@[simp] theorem dataStep_src (s : State) (n : Nat) (out : List Byte) (p : Phase) :
    (dataStep s n out p).src = s.src := rfl
@[simp] theorem dataStep_dst (s : State) (n : Nat) (out : List Byte) (p : Phase) :
    (dataStep s n out p).dst = s.dst := rfl
@[simp] theorem dataStep_len (s : State) (n : Nat) (out : List Byte) (p : Phase) :
    (dataStep s n out p).len = s.len := rfl
@[simp] theorem dataStep_srcEnd (s : State) (n : Nat) (out : List Byte) (p : Phase) :
    (dataStep s n out p).srcEnd = s.srcEnd := rfl
@[simp] theorem dataStep_dstEnd (s : State) (n : Nat) (out : List Byte) (p : Phase) :
    (dataStep s n out p).dstEnd = s.dstEnd := rfl
@[simp] theorem dataStep_done (s : State) (n : Nat) (out : List Byte) (p : Phase) :
    (dataStep s n out p).done = s.done := rfl
@[simp] theorem dataStep_phase (s : State) (n : Nat) (out : List Byte) (p : Phase) :
    (dataStep s n out p).phase = p := rfl
@[simp] theorem dataStep_rs (s : State) (n : Nat) (out : List Byte) (p : Phase) :
    (dataStep s n out p).rs = advance s.config s.rs n := rfl
@[simp] theorem dataStep_wd (s : State) (n : Nat) (out : List Byte) (p : Phase) :
    (dataStep s n out p).wd = advance s.config s.wd (2 * n) := rfl
@[simp] theorem dataStep_rem (s : State) (n : Nat) (out : List Byte) (p : Phase) :
    (dataStep s n out p).rem = s.rem - BitVec.ofNat 64 n := rfl
@[simp] theorem dataStep_scalar (s : State) (n : Nat) (out : List Byte) (p : Phase) :
    (dataStep s n out p).scalar = s.scalar := rfl
@[simp] theorem dataStep_chars (s : State) (n : Nat) (out : List Byte) (p : Phase) :
    (dataStep s n out p).chars = s.chars := rfl
@[simp] theorem dataStep_mem (s : State) (n : Nat) (out : List Byte) (p : Phase) :
    (dataStep s n out p).mem = s.mem.store (writeCells s.config s.wd 0 out) := rfl
@[simp] theorem dataStep_fault (s : State) (n : Nat) (out : List Byte) (p : Phase) :
    (dataStep s n out p).fault = s.fault := rfl
@[simp] theorem dataStep_history (s : State) (n : Nat) (out : List Byte) (p : Phase) :
    (dataStep s n out p).history =
      s.history ++ [{ phase := s.phase, reads := readCells s.config s.mem s.rs n, writes := writeCells s.config s.wd 0 out }] :=
  rfl
@[simp] theorem dataStep_job (s : State) (n : Nat) (out : List Byte) (p : Phase) :
    (dataStep s n out p).job = s.job := rfl
@[simp] theorem dataStep_rdata (s : State) (n : Nat) (out : List Byte) (p : Phase) :
    (dataStep s n out p).rdata = s.rdata := rfl
@[simp] theorem dataStep_hostProgram (s : State) (n : Nat) (out : List Byte) (p : Phase) :
    (dataStep s n out p).hostProgram = s.hostProgram := rfl
@[simp] theorem dataStep_temps (s : State) (n : Nat) (out : List Byte) (p : Phase) :
    (dataStep s n out p).temps = s.temps := rfl
@[simp] theorem dataStep_turns (s : State) (n : Nat) (out : List Byte) (p : Phase) :
    (dataStep s n out p).turns = s.turns := rfl
@[simp] theorem dataStep_draws (s : State) (n : Nat) (out : List Byte) (p : Phase) :
    (dataStep s n out p).draws = s.draws := rfl

/-! ## finishJob -/

@[simp] theorem finishJob_config (s : State) : (finishJob s).config = s.config := rfl
@[simp] theorem finishJob_src (s : State) : (finishJob s).src = s.src := rfl
@[simp] theorem finishJob_dst (s : State) : (finishJob s).dst = s.dst := rfl
@[simp] theorem finishJob_len (s : State) : (finishJob s).len = s.len := rfl
@[simp] theorem finishJob_srcEnd (s : State) : (finishJob s).srcEnd = truncAddr s.config s.rs := rfl
@[simp] theorem finishJob_dstEnd (s : State) : (finishJob s).dstEnd = truncAddr s.config s.wd := rfl
@[simp] theorem finishJob_done (s : State) : (finishJob s).done = true := rfl
@[simp] theorem finishJob_phase (s : State) : (finishJob s).phase = .idle := rfl
@[simp] theorem finishJob_rs (s : State) : (finishJob s).rs = s.rs := rfl
@[simp] theorem finishJob_wd (s : State) : (finishJob s).wd = s.wd := rfl
@[simp] theorem finishJob_rem (s : State) : (finishJob s).rem = s.rem := rfl
@[simp] theorem finishJob_scalar (s : State) : (finishJob s).scalar = Config.freeScalar s.draws := rfl
@[simp] theorem finishJob_chars (s : State) : (finishJob s).chars = Config.freeChars s.draws := rfl
@[simp] theorem finishJob_mem (s : State) : (finishJob s).mem = s.mem := rfl
@[simp] theorem finishJob_fault (s : State) : (finishJob s).fault = s.fault := rfl
@[simp] theorem finishJob_history (s : State) : (finishJob s).history = s.history := rfl
@[simp] theorem finishJob_job (s : State) : (finishJob s).job = s.job := rfl
@[simp] theorem finishJob_rdata (s : State) : (finishJob s).rdata = s.rdata := rfl
@[simp] theorem finishJob_hostProgram (s : State) : (finishJob s).hostProgram = s.hostProgram := rfl
@[simp] theorem finishJob_temps (s : State) : (finishJob s).temps = s.temps := rfl
@[simp] theorem finishJob_turns (s : State) : (finishJob s).turns = s.turns := rfl
@[simp] theorem finishJob_draws (s : State) : (finishJob s).draws = s.draws + 1 := rfl

/-! ## resetBlock -/

@[simp] theorem resetBlock_config (s : State) : (resetBlock s).config = s.config := rfl
@[simp] theorem resetBlock_src (s : State) : (resetBlock s).src = 0 := rfl
@[simp] theorem resetBlock_dst (s : State) : (resetBlock s).dst = 0 := rfl
@[simp] theorem resetBlock_len (s : State) : (resetBlock s).len = 0 := rfl
@[simp] theorem resetBlock_srcEnd (s : State) : (resetBlock s).srcEnd = 0 := rfl
@[simp] theorem resetBlock_dstEnd (s : State) : (resetBlock s).dstEnd = 0 := rfl
@[simp] theorem resetBlock_done (s : State) : (resetBlock s).done = false := rfl
@[simp] theorem resetBlock_phase (s : State) : (resetBlock s).phase = .idle := rfl
@[simp] theorem resetBlock_rs (s : State) : (resetBlock s).rs = 0 := rfl
@[simp] theorem resetBlock_wd (s : State) : (resetBlock s).wd = 0 := rfl
@[simp] theorem resetBlock_rem (s : State) : (resetBlock s).rem = 0 := rfl
@[simp] theorem resetBlock_scalar (s : State) : (resetBlock s).scalar = Config.freeScalar s.draws := rfl
@[simp] theorem resetBlock_chars (s : State) : (resetBlock s).chars = Config.freeChars s.draws := rfl
@[simp] theorem resetBlock_mem (s : State) : (resetBlock s).mem = resetMemory s := rfl
@[simp] theorem resetBlock_fault (s : State) : (resetBlock s).fault = s.fault := rfl
@[simp] theorem resetBlock_history (s : State) : (resetBlock s).history = s.history := rfl
@[simp] theorem resetBlock_job (s : State) : (resetBlock s).job = none := rfl
@[simp] theorem resetBlock_rdata (s : State) : (resetBlock s).rdata = s.rdata := rfl
@[simp] theorem resetBlock_hostProgram (s : State) : (resetBlock s).hostProgram = s.hostProgram := rfl
@[simp] theorem resetBlock_temps (s : State) : (resetBlock s).temps = s.temps := rfl
@[simp] theorem resetBlock_turns (s : State) : (resetBlock s).turns = s.turns := rfl
@[simp] theorem resetBlock_draws (s : State) : (resetBlock s).draws = s.draws + 1 := rfl

/-! ## popTurn -/

@[simp] theorem popTurn_config (s : State) : (popTurn s).config = s.config := rfl
@[simp] theorem popTurn_src (s : State) : (popTurn s).src = s.src := rfl
@[simp] theorem popTurn_dst (s : State) : (popTurn s).dst = s.dst := rfl
@[simp] theorem popTurn_len (s : State) : (popTurn s).len = s.len := rfl
@[simp] theorem popTurn_srcEnd (s : State) : (popTurn s).srcEnd = s.srcEnd := rfl
@[simp] theorem popTurn_dstEnd (s : State) : (popTurn s).dstEnd = s.dstEnd := rfl
@[simp] theorem popTurn_done (s : State) : (popTurn s).done = s.done := rfl
@[simp] theorem popTurn_phase (s : State) : (popTurn s).phase = s.phase := rfl
@[simp] theorem popTurn_rs (s : State) : (popTurn s).rs = s.rs := rfl
@[simp] theorem popTurn_wd (s : State) : (popTurn s).wd = s.wd := rfl
@[simp] theorem popTurn_rem (s : State) : (popTurn s).rem = s.rem := rfl
@[simp] theorem popTurn_scalar (s : State) : (popTurn s).scalar = s.scalar := rfl
@[simp] theorem popTurn_chars (s : State) : (popTurn s).chars = s.chars := rfl
@[simp] theorem popTurn_mem (s : State) : (popTurn s).mem = s.mem := rfl
@[simp] theorem popTurn_fault (s : State) : (popTurn s).fault = s.fault := rfl
@[simp] theorem popTurn_history (s : State) : (popTurn s).history = s.history := rfl
@[simp] theorem popTurn_job (s : State) : (popTurn s).job = s.job := rfl
@[simp] theorem popTurn_rdata (s : State) : (popTurn s).rdata = s.rdata := rfl
@[simp] theorem popTurn_hostProgram (s : State) : (popTurn s).hostProgram = s.hostProgram := rfl
@[simp] theorem popTurn_temps (s : State) : (popTurn s).temps = s.temps := rfl
@[simp] theorem popTurn_turns (s : State) : (popTurn s).turns = s.turns.tail := rfl
@[simp] theorem popTurn_draws (s : State) : (popTurn s).draws = s.draws := rfl

/-! ## bindTemp: only the host's names change -/

@[simp] theorem bindTemp_config (d : Option Nat) (v : Word) (s : State) : (bindTemp d v s).config = s.config := by
  cases d <;> rfl
@[simp] theorem bindTemp_src (d : Option Nat) (v : Word) (s : State) : (bindTemp d v s).src = s.src := by
  cases d <;> rfl
@[simp] theorem bindTemp_dst (d : Option Nat) (v : Word) (s : State) : (bindTemp d v s).dst = s.dst := by
  cases d <;> rfl
@[simp] theorem bindTemp_len (d : Option Nat) (v : Word) (s : State) : (bindTemp d v s).len = s.len := by
  cases d <;> rfl
@[simp] theorem bindTemp_srcEnd (d : Option Nat) (v : Word) (s : State) : (bindTemp d v s).srcEnd = s.srcEnd := by
  cases d <;> rfl
@[simp] theorem bindTemp_dstEnd (d : Option Nat) (v : Word) (s : State) : (bindTemp d v s).dstEnd = s.dstEnd := by
  cases d <;> rfl
@[simp] theorem bindTemp_done (d : Option Nat) (v : Word) (s : State) : (bindTemp d v s).done = s.done := by
  cases d <;> rfl
@[simp] theorem bindTemp_phase (d : Option Nat) (v : Word) (s : State) : (bindTemp d v s).phase = s.phase := by
  cases d <;> rfl
@[simp] theorem bindTemp_rs (d : Option Nat) (v : Word) (s : State) : (bindTemp d v s).rs = s.rs := by
  cases d <;> rfl
@[simp] theorem bindTemp_wd (d : Option Nat) (v : Word) (s : State) : (bindTemp d v s).wd = s.wd := by
  cases d <;> rfl
@[simp] theorem bindTemp_rem (d : Option Nat) (v : Word) (s : State) : (bindTemp d v s).rem = s.rem := by
  cases d <;> rfl
@[simp] theorem bindTemp_scalar (d : Option Nat) (v : Word) (s : State) : (bindTemp d v s).scalar = s.scalar := by
  cases d <;> rfl
@[simp] theorem bindTemp_chars (d : Option Nat) (v : Word) (s : State) : (bindTemp d v s).chars = s.chars := by
  cases d <;> rfl
@[simp] theorem bindTemp_mem (d : Option Nat) (v : Word) (s : State) : (bindTemp d v s).mem = s.mem := by
  cases d <;> rfl
@[simp] theorem bindTemp_fault (d : Option Nat) (v : Word) (s : State) : (bindTemp d v s).fault = s.fault := by
  cases d <;> rfl
@[simp] theorem bindTemp_history (d : Option Nat) (v : Word) (s : State) : (bindTemp d v s).history = s.history := by
  cases d <;> rfl
@[simp] theorem bindTemp_job (d : Option Nat) (v : Word) (s : State) : (bindTemp d v s).job = s.job := by
  cases d <;> rfl
@[simp] theorem bindTemp_rdata (d : Option Nat) (v : Word) (s : State) : (bindTemp d v s).rdata = s.rdata := by
  cases d <;> rfl
@[simp] theorem bindTemp_hostProgram (d : Option Nat) (v : Word) (s : State) : (bindTemp d v s).hostProgram = s.hostProgram := by
  cases d <;> rfl
@[simp] theorem bindTemp_turns (d : Option Nat) (v : Word) (s : State) : (bindTemp d v s).turns = s.turns := by
  cases d <;> rfl
@[simp] theorem bindTemp_draws (d : Option Nat) (v : Word) (s : State) : (bindTemp d v s).draws = s.draws := by
  cases d <;> rfl

end Sys2Proof.Machine
end

