-- ==== Sys2Proof/Laws/Steps.lean ====
section
/-! SUPPORT. What the engine's data step does, once for all of its uses, and that the remainder path and the fast path
are data steps of the batch transform. -/

namespace Sys2Proof.Machine

/-- A data step that stores the batch transform of its bytes encodes them at the cursors. -/
theorem dataStep_encodes (s : State) (n : Nat) (p : Phase) (hm : s.mem.wf = true) (hn : n ≤ 32)
    (hr : n ≤ s.rem.toNat) :
    EncodesAtCursors s (dataStep s n (xform (readBytes s.config s.mem s.rs n)) p) n := by
  have hA := addrSpace_ge s.config
  have hl : (xform (readBytes s.config s.mem s.rs n)).length ≤ 2 ^ addrBits s.config := by
    simp only [xform_length, readBytes_length]
    omega
  have hn64 : (BitVec.ofNat 64 n).toNat = n := by
    rw [BitVec.toNat_ofNat, Nat.mod_eq_of_lt (by omega)]
  constructor
  · intro i hi
    constructor
    · apply read_store_writeCells hm hl
      rw [xform_getElem?_even, readBytes_getElem? _ _ _ hi]
      rfl
    · apply read_store_writeCells hm hl
      rw [xform_getElem?_odd, readBytes_getElem? _ _ _ hi]
      rfl
  · intro a ha
    apply read_store_writeCells_other hm
    simpa using ha
  · simp
  · simp
  · rw [dataStep_rem, BitVec.toNat_sub_of_le (by rw [BitVec.le_def, hn64]; exact hr), hn64]
  · refine ⟨_, rfl, rfl, rfl, ?_⟩
    simpa using writeCells_eq (a := s.wd) hm hl
  · rfl

/-- A data step may set REM, SCALAR and CHARS by its own rule and still encode its bytes. -/
theorem EncodesAtCursors.override {s t : State} {n : Nat} (h : EncodesAtCursors s t n) (r : Word)
    (sc : BitVec 64) (ch : BitVec 128) (hr : r.toNat = s.rem.toNat - n) :
    EncodesAtCursors s { t with rem := r, scalar := sc, chars := ch } n := by
  obtain ⟨a, b, c, d, -, f, g⟩ := h
  refine ⟨a, b, c, d, hr, f, ?_⟩
  dsimp only
  rw [g]

/-- The bytes a REM step stores are the batch transform of the bytes it reads (42_remainder.md R118). -/
theorem remOut_eq_xform (s : State) (r : Nat) (h : r ≤ 8) :
    selectChars (transformScalar (assemble s r)) r = xform (readBytes s.config s.mem s.rs r) := by
  have := selectChars_transformScalar (readBytes s.config s.mem s.rs r) (by simpa using h)
  rwa [readBytes_length] at this

/-- The bytes FAST1 stores are the batch transform of the byte it reads (43_fast_path.md R126). -/
theorem fastOut_eq_xform (s : State) :
    fastBytes (s.mem.read (portAddr s.config s.rs 0)) = xform (readBytes s.config s.mem s.rs 1) := by
  rw [fastBytes_eq_xform]
  rfl

/-- The state after a FAST1 step whose events are admitted. -/
def afterFast1 (s : State) : State :=
  { dataStep s 1 (xform (readBytes s.config s.mem s.rs 1)) .finish with rem := 0 }

/-- The state after a REM step whose events are admitted. -/
def afterRem (s : State) : State :=
  { dataStep s s.rem.toNat (xform (readBytes s.config s.mem s.rs s.rem.toNat)) .finish with
    rem := 0
    scalar := assemble s s.rem.toNat
    chars := transformScalar (assemble s s.rem.toNat) }

/-- The state after a bulk step of width `b` whose events are admitted. -/
def afterBulk (b : Nat) (s : State) : State :=
  dataStep s b (xform (readBytes s.config s.mem s.rs b)) (nextPhase s.config (s.rem.toNat - b))

/-- What an engine step that answers a next state did, phase by phase: a data step made its effect or waited, IDLE
waited, FINISH finished; the reserved code answers none. -/
theorem engineTurn_cases {s t : State} (h : engineTurn s = .next t) :
    s.fault = none ∧
      ((t = s ∧ (s.phase = .idle ∨ engineStuck s = true)) ∨
        (s.phase = .fast1 ∧ admitted s 1 = true ∧ t = afterFast1 s) ∨
        (∃ b, (s.phase = .bulk32 ∧ b = 32 ∨ s.phase = .bulk16 ∧ b = 16 ∨ s.phase = .bulk8 ∧ b = 8) ∧
          b ≤ s.rem.toNat ∧ admitted s b = true ∧ t = afterBulk b s) ∨
        (s.phase = .rem ∧ 1 ≤ s.rem.toNat ∧ s.rem.toNat ≤ 7 ∧ admitted s s.rem.toNat = true ∧ t = afterRem s) ∨
        (s.phase = .finish ∧ s.rem.toNat = 0 ∧ t = finishJob s)) := by
  unfold engineTurn at h
  rw [engineInstr_eq] at h
  cases hp : s.phase with
  | idle =>
    rw [hp] at h
    obtain ⟨hf, -, hk⟩ := engineEnabled_next h
    cases hk
    exact ⟨hf, .inl ⟨rfl, .inl rfl⟩⟩
  | fast1 =>
    rw [hp] at h
    obtain ⟨hf, -, hk⟩ := engineEnabled_next h
    obtain ⟨-, ⟨ha, rfl⟩ | ⟨ha, rfl⟩⟩ := guardedData_next hk
    · exact ⟨hf, .inr (.inl ⟨rfl, ha, by rw [fastOut_eq_xform]; rfl⟩)⟩
    · exact ⟨hf, .inl ⟨rfl, .inr (by simp [engineStuck, hp, phaseBytes, ha])⟩⟩
  | bulk32 =>
    rw [hp] at h
    obtain ⟨hf, -, hk⟩ := engineEnabled_next h
    obtain ⟨hg, ⟨ha, rfl⟩ | ⟨ha, rfl⟩⟩ := guardedData_next hk
    · simp only [phaseGuard, Bool.and_eq_true, decide_eq_true_eq] at hg
      exact ⟨hf, .inr (.inr (.inl ⟨32, .inl ⟨rfl, rfl⟩, hg.1, ha, rfl⟩))⟩
    · exact ⟨hf, .inl ⟨rfl, .inr (by simp [engineStuck, hp, phaseBytes, ha])⟩⟩
  | bulk16 =>
    rw [hp] at h
    obtain ⟨hf, -, hk⟩ := engineEnabled_next h
    obtain ⟨hg, ⟨ha, rfl⟩ | ⟨ha, rfl⟩⟩ := guardedData_next hk
    · simp only [phaseGuard, decide_eq_true_eq] at hg
      exact ⟨hf, .inr (.inr (.inl ⟨16, .inr (.inl ⟨rfl, rfl⟩), hg, ha, rfl⟩))⟩
    · exact ⟨hf, .inl ⟨rfl, .inr (by simp [engineStuck, hp, phaseBytes, ha])⟩⟩
  | bulk8 =>
    rw [hp] at h
    obtain ⟨hf, -, hk⟩ := engineEnabled_next h
    obtain ⟨hg, ⟨ha, rfl⟩ | ⟨ha, rfl⟩⟩ := guardedData_next hk
    · simp only [phaseGuard, decide_eq_true_eq] at hg
      exact ⟨hf, .inr (.inr (.inl ⟨8, .inr (.inr ⟨rfl, rfl⟩), hg, ha, rfl⟩))⟩
    · exact ⟨hf, .inl ⟨rfl, .inr (by simp [engineStuck, hp, phaseBytes, ha])⟩⟩
  | rem =>
    rw [hp] at h
    obtain ⟨hf, -, hk⟩ := engineEnabled_next h
    obtain ⟨hg, ⟨ha, rfl⟩ | ⟨ha, rfl⟩⟩ := guardedData_next hk
    · simp only [phaseGuard, decide_eq_true_eq] at hg
      exact ⟨hf, .inr (.inr (.inr (.inl ⟨rfl, hg.1, hg.2, ha, by
        rw [remOut_eq_xform s _ (by omega)]; rfl⟩)))⟩
    · exact ⟨hf, .inl ⟨rfl, .inr (by simp [engineStuck, hp, phaseBytes, ha])⟩⟩
  | finish =>
    rw [hp] at h
    obtain ⟨hf, -, hk⟩ := engineEnabled_next h
    split at hk
    · rename_i hg
      simp only [phaseGuard, decide_eq_true_eq] at hg
      cases hk
      exact ⟨hf, .inr (.inr (.inr (.inr ⟨rfl, hg, rfl⟩)))⟩
    · cases hk
  | rsvd7 =>
    rw [hp] at h
    obtain ⟨-, -, hk⟩ := engineEnabled_next h
    cases hk

/-- What a host register access that answers a next state did: it returned read data, took an argument while idle, ran
START while idle, or changed nothing. -/
theorem hostExec_cases {i : Instr} {s t : State} (hi : isHostAccess i = true) (h : exec i s = .next t) :
    s.fault = none ∧
      (t = s ∨ (∃ v, t = { s with rdata := v }) ∨
        (s.phase = .idle ∧ ∃ w, t = { s with src := truncAddr s.config w } ∨
          t = { s with dst := truncAddr s.config w } ∨ t = { s with len := truncAddr s.config w }) ∨
        (s.phase = .idle ∧ (∃ w, i = .wrCtrl w) ∧ t = start s)) := by
  have hread : ∀ v, returnData s v = .next t → s.fault = none ∧ t = { s with rdata := v } := by
    intro v hv
    obtain ⟨hf, hk⟩ := hostEnabled_next hv
    cases hk
    exact ⟨hf, rfl⟩
  have hign : ignoreWrite s = .next t → s.fault = none ∧ t = s := by
    intro hv
    obtain ⟨hf, hk⟩ := hostEnabled_next hv
    cases hk
    exact ⟨hf, rfl⟩
  have harg : ∀ u : State, hostEnabled s (.next (if busy s then s else u)) = .next t →
      s.fault = none ∧ (t = s ∨ (s.phase = .idle ∧ t = u)) := by
    intro u hv
    obtain ⟨hf, hk⟩ := hostEnabled_next hv
    cases hk
    refine ⟨hf, ?_⟩
    by_cases hb : s.phase = .idle
    · exact .inr ⟨hb, by simp [busy, hb]⟩
    · exact .inl (by simp [busy, hb])
  cases i with
  | rdCtrl => obtain ⟨hf, ht⟩ := hread _ h; exact ⟨hf, .inr (.inl ⟨_, ht⟩)⟩
  | rdStatus => obtain ⟨hf, ht⟩ := hread _ h; exact ⟨hf, .inr (.inl ⟨_, ht⟩)⟩
  | rdSrc => obtain ⟨hf, ht⟩ := hread _ h; exact ⟨hf, .inr (.inl ⟨_, ht⟩)⟩
  | rdDst => obtain ⟨hf, ht⟩ := hread _ h; exact ⟨hf, .inr (.inl ⟨_, ht⟩)⟩
  | rdLen => obtain ⟨hf, ht⟩ := hread _ h; exact ⟨hf, .inr (.inl ⟨_, ht⟩)⟩
  | rdSrcEnd => obtain ⟨hf, ht⟩ := hread _ h; exact ⟨hf, .inr (.inl ⟨_, ht⟩)⟩
  | rdDstEnd => obtain ⟨hf, ht⟩ := hread _ h; exact ⟨hf, .inr (.inl ⟨_, ht⟩)⟩
  | rdConfig => obtain ⟨hf, ht⟩ := hread _ h; exact ⟨hf, .inr (.inl ⟨_, ht⟩)⟩
  | rdRsvd8 idx => obtain ⟨hf, ht⟩ := hread _ h; exact ⟨hf, .inr (.inl ⟨_, ht⟩)⟩
  | rdRsvd16 idx => obtain ⟨hf, ht⟩ := hread _ h; exact ⟨hf, .inr (.inl ⟨_, ht⟩)⟩
  | wrStatus w => obtain ⟨hf, ht⟩ := hign h; exact ⟨hf, .inl ht⟩
  | wrSrcEnd w => obtain ⟨hf, ht⟩ := hign h; exact ⟨hf, .inl ht⟩
  | wrDstEnd w => obtain ⟨hf, ht⟩ := hign h; exact ⟨hf, .inl ht⟩
  | wrConfig w => obtain ⟨hf, ht⟩ := hign h; exact ⟨hf, .inl ht⟩
  | wrRsvd8 idx w => obtain ⟨hf, ht⟩ := hign h; exact ⟨hf, .inl ht⟩
  | wrRsvd16 idx w => obtain ⟨hf, ht⟩ := hign h; exact ⟨hf, .inl ht⟩
  | wrSrc w =>
    obtain ⟨hf, ht | ⟨hb, ht⟩⟩ := harg _ h
    · exact ⟨hf, .inl ht⟩
    · exact ⟨hf, .inr (.inr (.inl ⟨hb, w, .inl ht⟩))⟩
  | wrDst w =>
    obtain ⟨hf, ht | ⟨hb, ht⟩⟩ := harg _ h
    · exact ⟨hf, .inl ht⟩
    · exact ⟨hf, .inr (.inr (.inl ⟨hb, w, .inr (.inl ht)⟩))⟩
  | wrLen w =>
    obtain ⟨hf, ht | ⟨hb, ht⟩⟩ := harg _ h
    · exact ⟨hf, .inl ht⟩
    · exact ⟨hf, .inr (.inr (.inl ⟨hb, w, .inr (.inr ht)⟩))⟩
  | wrCtrl w =>
    obtain ⟨hf, hk⟩ := hostEnabled_next (k := .next (if startStrobe w && !busy s then start s else s)) h
    cases hk
    by_cases hb : startStrobe w = true ∧ s.phase = .idle
    · exact ⟨hf, .inr (.inr (.inr ⟨hb.2, ⟨w, rfl⟩, by simp [busy, hb.1, hb.2]⟩))⟩
    · refine ⟨hf, .inl (if_neg ?_)⟩
      simpa [busy] using hb
  | _ => cases hi

/-! ## The host's names and wait lines -/

/-- Binding a name changes the names and nothing else (30_encoding.md R71). -/
theorem bindTemp_eq (dest : Option Nat) (v : Word) (s : State) :
    bindTemp dest v s = { s with temps := namesWith dest v s.temps } := by
  cases dest <;> rfl

theorem bindRead_eq (dest : Option Nat) (s : State) :
    bindRead dest s = { s with temps := namesWith dest s.rdata s.temps } :=
  bindTemp_eq dest s.rdata s

/-- A wait line puts itself back on the program, or not, and does nothing else (30_encoding.md R72). -/
theorem repeatUnless_eq (ok : Word → Bool) (op : HostOp) (s : State) :
    repeatUnless ok op s = { s with
      hostProgram := if ok s.rdata = true then s.hostProgram else op :: s.hostProgram } := by
  unfold repeatUnless
  split <;> simp [*]

/-- The register access of a wait line: a STATUS read. -/
theorem hostAccess_status {s : State} (h : s.fault = none) (dest : Option Nat) :
    hostAccess 0x01#6 0 dest s =
      .next { s with rdata := statusWord s, temps := namesWith dest (statusWord s) s.temps } := by
  have : hostAccess 0x01#6 0 dest s =
      andThen (hostEnabled s (.next { s with rdata := statusWord s })) (bindRead dest) := rfl
  rw [this, hostEnabled_of_none h]
  simp only [andThen, bindRead_eq]

end Sys2Proof.Machine
end

