-- ==== Sys2Proof/Laws/Turns.lean ====
section
/-! SUPPORT. What one step of the machine can do, said once: the inversion lemmas of the host's turn, of the reset and
of `step`. -/

namespace Sys2Proof.Machine

/-- `u` with the host's own fields of `t`: its read data, program and names. -/
def withHostOf (t u : State) : State :=
  { u with rdata := t.rdata, hostProgram := t.hostProgram, temps := t.temps }

/-- `t` is `u` but for the host's own fields. -/
def SameBlock (u t : State) : Prop := t = withHostOf t u

theorem SameBlock.refl (s : State) : SameBlock s s := rfl

theorem SameBlock.dropLine (s : State) (rest : List HostOp) : SameBlock s { s with hostProgram := rest } := rfl

theorem sameBlock_bindTemp {u t : State} (h : SameBlock u t) (d : Option Nat) (v : Word) :
    SameBlock u (bindTemp d v t) := by
  cases d with
  | none => exact h
  | some k =>
    unfold SameBlock at h ⊢
    rw [h]
    rfl

theorem sameBlock_repeatUnless {u t : State} (h : SameBlock u t) (ok : Word → Bool) (op : HostOp) :
    SameBlock u (repeatUnless ok op t) := by
  unfold repeatUnless
  split
  · exact h
  · unfold SameBlock at h ⊢
    rw [h]
    rfl

theorem sameBlock_trans {u t v : State} (h : SameBlock u t) (h' : SameBlock t v) : SameBlock u v := by
  unfold SameBlock at *
  rw [h', h]
  rfl

/-- What the host's turn can do to the block. -/
inductive HostEffect (s : State) : State → Prop where
  /-- Nothing. -/
  | same : HostEffect s s
  /-- WR_SRC, WR_DST or WR_LEN while idle. -/
  | src (w : Word) : s.phase = .idle → HostEffect s { s with src := truncAddr s.config w }
  | dst (w : Word) : s.phase = .idle → HostEffect s { s with dst := truncAddr s.config w }
  | len (w : Word) : s.phase = .idle → HostEffect s { s with len := truncAddr s.config w }
  /-- START while idle. -/
  | start : s.phase = .idle → HostEffect s (start s)
  /-- A memory access that races. -/
  | race (a : Nat) (k : AccessKind) : HostEffect s (raiseUB (.race a k) s)
  /-- A memory write that does not race. -/
  | memWrite (a : Nat) (b : Byte) : races s a .write = false → writable s.config a = true →
      HostEffect s { s with mem := s.mem.write a b }

theorem decodeHost_isHostAccess (desc : BitVec 6) (w : Word) : isHostAccess (decodeHost desc w) = true := by
  unfold decodeHost
  split
  · unfold decodeWrite
    split <;> first | rfl | (split <;> rfl)
  · unfold decodeRead
    split <;> first | rfl | (split <;> rfl)

theorem start_withHostOf (s : State) (rest : List HostOp) :
    SameBlock (start s) (start { s with hostProgram := rest }) := by
  rcases start_cases s with ⟨r, hr, hs⟩ | ⟨hr, hs⟩
  · rcases start_cases { s with hostProgram := rest } with ⟨r', hr', hs'⟩ | ⟨hr', -⟩
    · have heq : some r = some r' := hr.symm.trans hr'
      cases heq
      rw [hs, hs']
      rfl
    · exact absurd (hr.symm.trans hr') (by simp)
  · rcases start_cases { s with hostProgram := rest } with ⟨r', hr', -⟩ | ⟨-, hs'⟩
    · exact absurd (hr'.symm.trans hr) (by simp)
    · rw [hs, hs']
      rfl

/-- A register access off the program does one of the host's effects. -/
theorem hostAccess_next {desc : BitVec 6} {w : Word} {d : Option Nat} {s t : State} {rest : List HostOp}
    (h : hostAccess desc w d { s with hostProgram := rest } = .next t) :
    s.fault = none ∧ ∃ u, HostEffect s u ∧ SameBlock u t := by
  obtain ⟨v, hv, rfl⟩ := andThen_next h
  obtain ⟨hf, hc⟩ := hostExec_cases (decodeHost_isHostAccess desc w) hv
  refine ⟨hf, ?_⟩
  have hb : ∀ u, SameBlock u v → SameBlock u ((if descWrite desc then id else bindRead d) v) := by
    intro u hu
    split
    · exact hu
    · exact sameBlock_bindTemp hu d _
  rcases hc with rfl | ⟨x, rfl⟩ | ⟨hp, x, rfl | rfl | rfl⟩ | ⟨hp, -, rfl⟩
  · exact ⟨s, .same, hb _ rfl⟩
  · exact ⟨s, .same, hb _ rfl⟩
  · exact ⟨_, .src x hp, hb _ rfl⟩
  · exact ⟨_, .dst x hp, hb _ rfl⟩
  · exact ⟨_, .len x hp, hb _ rfl⟩
  · exact ⟨_, .start hp, hb _ (start_withHostOf s rest)⟩

/-- The host's turn does one of the host's effects to the block. -/
theorem hostTurn_cases {s t : State} (h : hostTurn s = .next t) :
    s.fault = none ∧ ∃ u, HostEffect s u ∧ SameBlock u t := by
  unfold hostTurn at h
  split at h
  · obtain ⟨hf, hk⟩ := hostEnabled_next h
    cases hk
    exact ⟨hf, s, .same, rfl⟩
  · rename_i op rest _
    cases op with
    | reg desc v d =>
      simp only [hostLine] at h
      split at h
      · exact hostAccess_next h
      · obtain ⟨-, hk⟩ := hostEnabled_next h
        cases hk
    | windowRead addr width d =>
      simp only [hostLine] at h
      split at h
      · exact hostAccess_next h
      · obtain ⟨-, hk⟩ := hostEnabled_next h
        cases hk
    | windowWrite addr data =>
      simp only [hostLine] at h
      split at h
      · exact hostAccess_next h
      · obtain ⟨-, hk⟩ := hostEnabled_next h
        cases hk
    | waitDone d =>
      obtain ⟨v, hv, rfl⟩ := andThen_next h
      obtain ⟨hf, u, hu, hs⟩ := hostAccess_next hv
      exact ⟨hf, u, hu, sameBlock_repeatUnless hs _ _⟩
    | waitIdle d =>
      obtain ⟨v, hv, rfl⟩ := andThen_next h
      obtain ⟨hf, u, hu, hs⟩ := hostAccess_next hv
      exact ⟨hf, u, hu, sameBlock_repeatUnless hs _ _⟩
    | memRead a d =>
      obtain ⟨hf, hk⟩ := hostEnabled_next h
      split at hk
      · cases hk
        exact ⟨hf, _, .race a .read, rfl⟩
      · split at hk
        · cases hk
          exact ⟨hf, s, .same, sameBlock_bindTemp (SameBlock.dropLine s rest) d _⟩
        · cases hk
    | memWrite a b =>
      obtain ⟨hf, hk⟩ := hostEnabled_next h
      split at hk
      · cases hk
        exact ⟨hf, _, .race a .write, rfl⟩
      · rename_i hr
        split at hk
        · rename_i hw
          cases hk
          have hr' : races s a .write = false := by simpa [races, busy] using hr
          exact ⟨hf, _, .memWrite a b hr' hw, rfl⟩
        · cases hk

theorem sameBlock_loseAccess (s : State) : SameBlock s (loseAccess s) := by
  unfold loseAccess
  split
  · split
    · rfl
    · exact sameBlock_bindTemp (SameBlock.dropLine s _) _ _
  · exact sameBlock_bindTemp (SameBlock.dropLine s _) _ _
  · rfl
  · rfl

/-- With FAULT set the host has no access to lose (60_exceptions.md R160). -/
theorem loseAccess_of_fault {s : State} {r : UB} (h : s.fault = some r) : loseAccess s = s := by
  simp [loseAccess, h]

theorem sameBlock_resetBlock {u t : State} (h : SameBlock u t) : SameBlock (resetBlock u) (resetBlock t) := by
  unfold SameBlock at h ⊢
  rw [h]
  rfl

/-- What one step can do: the host's effect, the engine's turn, or a reset of the block. -/
theorem step_cases {s t : State} (h : step s = .next t) :
    (s.fault = none ∧ ∃ u, HostEffect (popTurn s) u ∧ SameBlock u t) ∨
      (nextTurn s = .engine ∧ engineTurn (popTurn s) = .next t) ∨
      (SameBlock (resetBlock (popTurn s)) t) := by
  unfold step takeTurn at h
  cases hn : nextTurn s with
  | host =>
    rw [hn] at h
    obtain ⟨hf, hu⟩ := hostTurn_cases h
    exact .inl ⟨hf, hu⟩
  | engine =>
    rw [hn] at h
    exact .inr (.inl ⟨rfl, h⟩)
  | reset =>
    rw [hn] at h
    cases h
    exact .inr (.inr rfl)
  | resetLost =>
    rw [hn] at h
    cases h
    exact .inr (.inr (sameBlock_resetBlock (sameBlock_loseAccess _)))

/-! ## Memory after a reset -/

theorem abandonBytes_wf (j : Job) (draw : Nat) : ∀ (n : Nat) {m : Memory}, m.wf = true →
    (abandonBytes j draw n m).wf = true
  | 0, _, h => h
  | n + 1, _, h => Memory.wf_write (abandonBytes_wf j draw n h) _ _

/-- Settling an abandoned job's bytes leaves each as its free value says, and every other address alone. -/
theorem read_abandonBytes (j : Job) (draw : Nat) : ∀ (n : Nat) {m : Memory}, m.wf = true →
    (∀ i < n, (abandonBytes j draw n m).read (j.dst.toNat + i) = abandonedByte j draw i) ∧
      ∀ a, (a < j.dst.toNat ∨ j.dst.toNat + n ≤ a) → (abandonBytes j draw n m).read a = m.read a
  | 0, _, _ => ⟨fun i hi => absurd hi (Nat.not_lt_zero i), fun _ _ => rfl⟩
  | n + 1, m, h => by
    obtain ⟨h1, h2⟩ := read_abandonBytes j draw n h
    have hw := abandonBytes_wf j draw n h
    constructor
    · intro i hi
      simp only [abandonBytes]
      rw [Memory.read_write hw]
      by_cases hin : i = n
      · subst hin
        rw [if_pos rfl]
      · rw [if_neg (by omega)]
        exact h1 i (by omega)
    · intro a ha
      simp only [abandonBytes]
      rw [Memory.read_write hw, if_neg (by omega)]
      exact h2 a (by omega)

theorem resetMemory_wf {s : State} (h : s.mem.wf = true) : (resetMemory s).wf = true := by
  unfold resetMemory
  split
  · exact h
  · exact h
  · exact abandonBytes_wf _ _ _ h

theorem resetMemory_idle {s : State} (h : s.phase = .idle) : resetMemory s = s.mem := by
  unfold resetMemory
  rw [h]

theorem resetMemory_busy {s : State} {j : Job} (h : s.phase ≠ .idle) (hj : s.job = some j) :
    resetMemory s = abandonBytes j s.draws (2 * j.len.toNat) s.mem := by
  unfold resetMemory
  rw [hj]
  cases hp : s.phase <;> first | exact absurd hp h | rfl

end Sys2Proof.Machine
end

