-- ==== Sys2Proof/Tests/Slice0.lean ====
section
/-! SUPPORT. The model's own tests: ill-formed terms, words written out from the opcode map, and one-step tests whose
results are those of spec/95_test_vectors.md or worked by hand from the rule named. -/

namespace Sys2Proof.Tests

open Sys2Proof Sys2Proof.Machine

/-! ## Helpers -/

/-- A part of the next state, if there is one. -/
def outcomeOf {α : Type} (o : Host.Outcome State Fault Refusal) (f : State → α) : Option α :=
  match o with
  | .next s => some (f s)
  | .fault _ => none
  | .refused _ => none

/-- Whether the outcome is this refusal. -/
def isRefusal (o : Host.Outcome State Fault Refusal) (r : Refusal) : Bool :=
  match o with
  | .next _ => false
  | .fault _ => false
  | .refused r' => decide (r' = r)

/-- The characters' codes. -/
def ascii (cs : List Char) : List Byte := cs.map fun c => BitVec.ofNat 8 c.toNat

/-- Memory with the bytes from address `a`. -/
def memoryWith (a : Nat) (bs : List Byte) : Memory := Memory.store [] ((List.range bs.length).map fun k => (a + k, bs.getD k 0))

/-- The `n` bytes memory holds from address `a`. -/
def bytesAt (m : Memory) (a n : Nat) : List Byte := (List.range n).map fun k => m.read (a + k)

/-- An engine state of spec/95_test_vectors.md L2.4 to L2.6: RS = 0x1000, WD = 0x2000. -/
def atPhase (p : Phase) (rem : Word) (bytes : List Byte) : State :=
  { State.reset with phase := p, rem := rem, rs := 0x1000, wd := 0x2000, mem := memoryWith 0x1000 bytes }

/-- An idle state with arguments. -/
def withArguments (src dst len : Word) : State := { State.reset with src := src, dst := dst, len := len }

/-- A state of a 32-bit build with arguments. -/
def withArguments32 (src dst len : Word) : State :=
  { State.reset with
    config := { Config.standard with addrW := .w32, maxBatch := .b16, tableMode := .synth }
    src := src, dst := dst, len := len }

/-- A busy state of a job of 40 bytes (L2.8i, L2.8j). -/
def busy40 : State := { State.reset with phase := .bulk32, src := 0x1000, dst := 0x2000, len := 40 }

/-! ## Well-formedness: a term each check refuses -/

theorem test_ill_formed_rdRsvd8 : (Instr.rdRsvd8 7).wellFormed = false ∧ (Instr.rdRsvd8 16).wellFormed = false := by
  decide

theorem test_ill_formed_rdRsvd16 : (Instr.rdRsvd16 15).wellFormed = false := by decide

theorem test_ill_formed_wrRsvd8 :
    (Instr.wrRsvd8 7 0).wellFormed = false ∧ (Instr.wrRsvd8 16 0).wellFormed = false := by
  decide

theorem test_ill_formed_wrRsvd16 : (Instr.wrRsvd16 15 0).wellFormed = false := by decide

/-! ## Decoding: words written out bit by bit from 30_encoding.md R60, R66, R69 -/

theorem test_decode_reads :
    decodeHost 0b000000#6 9 = .rdCtrl ∧ decodeHost 0b000001#6 9 = .rdStatus ∧ decodeHost 0b000010#6 9 = .rdSrc ∧
      decodeHost 0b000011#6 9 = .rdDst ∧ decodeHost 0b000100#6 9 = .rdLen ∧ decodeHost 0b000101#6 9 = .rdSrcEnd ∧
      decodeHost 0b000110#6 9 = .rdDstEnd ∧ decodeHost 0b000111#6 9 = .rdConfig := by
  decide

theorem test_decode_writes :
    decodeHost 0b100000#6 9 = .wrCtrl 9 ∧ decodeHost 0b100001#6 9 = .wrStatus 9 ∧
      decodeHost 0b100010#6 9 = .wrSrc 9 ∧ decodeHost 0b100011#6 9 = .wrDst 9 ∧ decodeHost 0b100100#6 9 = .wrLen 9 ∧
      decodeHost 0b100101#6 9 = .wrSrcEnd 9 ∧ decodeHost 0b100110#6 9 = .wrDstEnd 9 ∧
      decodeHost 0b100111#6 9 = .wrConfig 9 := by
  decide

theorem test_decode_reserved :
    decodeHost 0b001000#6 9 = .rdRsvd8 8 ∧ decodeHost 0b001111#6 9 = .rdRsvd8 15 ∧
      decodeHost 0b010000#6 9 = .rdRsvd16 16 ∧ decodeHost 0b011111#6 9 = .rdRsvd16 31 ∧
      decodeHost 0b101000#6 9 = .wrRsvd8 8 9 ∧ decodeHost 0b101111#6 9 = .wrRsvd8 15 9 ∧
      decodeHost 0b110000#6 9 = .wrRsvd16 16 9 ∧ decodeHost 0b111111#6 9 = .wrRsvd16 31 9 := by
  decide

theorem test_decode_phases :
    decodePhase 0b000#3 = .idle ∧ decodePhase 0b001#3 = .fast1 ∧ decodePhase 0b010#3 = .bulk32 ∧
      decodePhase 0b011#3 = .bulk16 ∧ decodePhase 0b100#3 = .bulk8 ∧ decodePhase 0b101#3 = .rem ∧
      decodePhase 0b110#3 = .finish ∧ decodePhase 0b111#3 = .rsvd7 := by
  decide

/-- The table's words as the host numbers them. -/
theorem test_decodeTableWord :
    decodeTableWord 8 0x22 = some (.wrSrc 0) ∧ decodeTableWord 6 0x3F = some (.wrRsvd16 31 0) ∧
      decodeTableWord 3 0b101 = some .rem ∧ decodeTableWord 8 64 = none ∧ decodeTableWord 3 8 = none := by
  decide

/-- L2.8e over a byte-addressed bus: RD SRC is 8 bytes at REG_BASE + 0x10 (R60); a 4-byte access is refused (R61). -/
theorem test_decodeWindow :
    decodeWindow 0x4000 0x4010 8 = .ok 2#5 ∧ decodeWindow 0x4000 0x4010 4 = .error (.badRegisterAccess 0x4010 4) ∧
      decodeWindow 0x4000 0x4012 8 = .error (.badRegisterAccess 0x4012 8) ∧
      decodeWindow 0x4000 0x40F8 8 = .ok 31#5 ∧
      decodeWindow 0x4000 0x4100 8 = .error (.badRegisterAccess 0x4100 8) := by
  decide

/-! ## Memory -/

theorem test_memory_canonical :
    (memoryWith 0x1000 [0x01, 0x00, 0xFF]) = [(0x1000, 0x01), (0x1002, 0xFF)] ∧
      (Memory.write [(0x1000, 0x01)] 0x1000 0x00) = [] ∧ (Memory.wf [(2, 1), (1, 1)]) = false := by
  decide

/-! ## The tables and the datapath (L2.1, L2.2, L2.3) -/

theorem test_digit_jump : digit 0x9 = 0x39 ∧ digit 0xA = 0x61 ∧ digit 0xF = 0x66 := by decide

theorem test_pair : pair 0x01 = 0x3130 ∧ pair 0x9A = 0x6139 ∧ pair 0xA9 = 0x3961 ∧ pair 0xF0 = 0x3066 := by decide

theorem test_split_interleave : split 0xA5 = (0xA, 0x5) ∧ xform [0x12, 0x34] = ascii ['1', '2', '3', '4'] := by
  decide

/-- L1.7: SCALAR and the 16 characters for R = 3. -/
theorem test_assemble :
    assemble (atPhase .rem 3 [0x01, 0x23, 0xFF]) 3 = 0x0000000000FF2301 ∧
      bytesOf (transformScalar 0x0000000000FF2301) 16 =
        ascii ['0', '1', '2', '3', 'f', 'f', '0', '0', '0', '0', '0', '0', '0', '0', '0', '0'] := by
  decide

/-! ## Host reads (L2.8) -/

theorem test_rdCtrl : outcomeOf (exec .rdCtrl State.reset) State.rdata = some 0 := by decide

theorem test_rdStatus_reset : outcomeOf (exec .rdStatus State.reset) State.rdata = some 0x0 := by decide

theorem test_rdStatus_busy : outcomeOf (exec .rdStatus busy40) State.rdata = some 0x1 := by decide

theorem test_rdConfig_default : outcomeOf (exec .rdConfig State.reset) State.rdata = some 0x00400020 := by decide

theorem test_rdConfig_small : outcomeOf (exec .rdConfig (withArguments32 0 0 0)) State.rdata = some 0x00200110 := by
  decide

theorem test_rdSrc : outcomeOf (exec .rdSrc busy40) State.rdata = some 0x1000 := by decide

theorem test_rdDst : outcomeOf (exec .rdDst busy40) State.rdata = some 0x2000 := by decide

theorem test_rdLen : outcomeOf (exec .rdLen busy40) State.rdata = some 40 := by decide

theorem test_rdSrcEnd :
    outcomeOf (exec .rdSrcEnd { busy40 with srcEnd := 0x4005, dstEnd := 0x500A }) State.rdata = some 0x4005 := by
  decide

theorem test_rdDstEnd :
    outcomeOf (exec .rdDstEnd { busy40 with srcEnd := 0x4005, dstEnd := 0x500A }) State.rdata = some 0x500A := by
  decide

theorem test_rdRsvd8 : outcomeOf (exec (.rdRsvd8 8) { busy40 with rdata := 5 }) State.rdata = some 0 := by decide

theorem test_rdRsvd16 : outcomeOf (exec (.rdRsvd16 31) { busy40 with rdata := 5 }) State.rdata = some 0 := by decide

/-! ## Host writes (L2.8) -/

/-- L2.8f: bits 63:32 are dropped. -/
theorem test_wrSrc_narrow :
    outcomeOf (exec (.wrSrc 0xFFFFFFFF00001000) (withArguments32 0 0 0)) State.src = some 0x1000 := by
  decide

/-- L2.8i. -/
theorem test_wrSrc_busy : outcomeOf (exec (.wrSrc 0x5000) busy40) State.src = some 0x1000 := by decide

/-- L2.8g. -/
theorem test_wrDst_wide :
    outcomeOf (exec (.wrDst 0xFFFFFFFF00001000) State.reset) State.dst = some 0xFFFFFFFF00001000 := by
  decide

theorem test_wrDst_busy : outcomeOf (exec (.wrDst 5) busy40) State.dst = some 0x2000 := by decide

theorem test_wrLen : outcomeOf (exec (.wrLen 17) State.reset) State.len = some 17 := by decide

/-- L2.8j. -/
theorem test_wrLen_busy : outcomeOf (exec (.wrLen 5) busy40) State.len = some 40 := by decide

/-- L2.8h: DONE is not write-one-to-clear. -/
theorem test_wrStatus :
    outcomeOf (exec (.wrStatus 0x2) { State.reset with done := true }) (fun t => t.done) = some true := by
  decide

/-- L2.8o. -/
theorem test_wrSrcEnd : outcomeOf (exec (.wrSrcEnd 5) { State.reset with srcEnd := 0x1003 }) State.srcEnd = some 0x1003 := by
  decide

theorem test_wrDstEnd : outcomeOf (exec (.wrDstEnd 5) { State.reset with dstEnd := 0x2006 }) State.dstEnd = some 0x2006 := by
  decide

theorem test_wrConfig : outcomeOf (exec (.wrConfig 0x10) State.reset) (fun t => configWord t.config) = some 0x00400020 := by
  decide

/-- L2.8q. -/
theorem test_wrRsvd8 : outcomeOf (exec (.wrRsvd8 8 1) busy40) id = some busy40 := by decide

theorem test_wrRsvd16 : outcomeOf (exec (.wrRsvd16 31 1) busy40) id = some busy40 := by decide

/-- L2.8l: START with every bit written, n = 0. -/
theorem test_wrCtrl_start :
    outcomeOf (exec (.wrCtrl 0xFFFFFFFFFFFFFFFF) (withArguments 0x1000 0x2000 0))
      (fun t => (t.phase, t.done, statusWord t)) = some (.finish, false, 0x1) := by
  decide

/-- L2.8k and L2.8m: no START while busy, none without bit 0. -/
theorem test_wrCtrl_ignored :
    outcomeOf (exec (.wrCtrl 1) busy40) id = some busy40 ∧
      outcomeOf (exec (.wrCtrl 2) State.reset) id = some State.reset := by
  decide

/-! ## Preconditions of START (L2.9), one START per row -/

theorem test_start_faults :
    preconditionFailure Config.standard 0x1000 0xFFF 0x1 = some (.precondOverlap 0x1000 0xFFF 0x1) ∧
      preconditionFailure Config.standard 0x1000 0xFFE 0x1 = none ∧
      preconditionFailure Config.standard 0x1000 0x1000 0x0 = none ∧
      preconditionFailure Config.standard 0x2000 0x1000 0x800 = none ∧
      preconditionFailure Config.standard 0x1FFF 0x1000 0x800 = some (.precondOverlap 0x1FFF 0x1000 0x800) ∧
      preconditionFailure Config.standard 0x1000 0x0 0x8000000000000000 =
        some (.precondOverlap 0x1000 0x0 0x8000000000000000) ∧
      preconditionFailure Config.standard 0x1000 0x1000 0x8000000000000000 =
        some (.precondWrap 0x1000 0x1000 0x8000000000000000) := by
  decide

theorem test_start_faults_32 :
    preconditionFailure (withArguments32 0 0 0).config 0xFFFFFFFF 0x1000 0x1 = none ∧
      preconditionFailure (withArguments32 0 0 0).config 0xFFFFFFFF 0x1000 0x2 =
        some (.precondWrap 0xFFFFFFFF 0x1000 0x2) ∧
      preconditionFailure (withArguments32 0 0 0).config 0x1000 0xFFFFFFFE 0x1 = none ∧
      preconditionFailure (withArguments32 0 0 0).config 0x1000 0xFFFFFFFF 0x1 =
        some (.precondWrap 0x1000 0xFFFFFFFF 0x1) := by
  decide

/-- L2.9a: the fault is set and nothing else happens. -/
theorem test_start_raises :
    outcomeOf (exec (.wrCtrl 1) (withArguments 0x1000 0x1000 1)) (fun t => (t.fault, t.phase)) =
      some (some (.precondOverlap 0x1000 0x1000 1), .idle) := by
  decide

/-! ## The sequencer (L2.7) -/

theorem test_nextPhase :
    [0, 1, 7, 8, 15, 16, 31, 32, 64].map (nextPhase Config.standard) =
        [.finish, .rem, .rem, .bulk8, .bulk8, .bulk16, .bulk16, .bulk32, .bulk32] ∧
      nextPhase (withArguments32 0 0 0).config 64 = .bulk16 ∧ entryPhase Config.standard 1 = .fast1 ∧
      entryPhase Config.standard 0 = .finish ∧ entryPhase Config.standard 2 = .rem := by
  decide

/-! ## Engine steps (L2.4, L2.5, L2.6) -/

set_option maxRecDepth 20000 in
/-- L2.4a and its cursors. -/
theorem test_bulk32 :
    outcomeOf (exec .bulk32 (atPhase .bulk32 40 (List.replicate 31 0xFF ++ [0x0A]))) (fun t =>
      (bytesAt t.mem 0x203C 5, t.rs, t.wd, t.rem, t.phase)) =
        some (ascii ['f', 'f', '0', 'a'] ++ [0x00], 0x1020, 0x2040, 8, .bulk8) := by
  decide

set_option maxRecDepth 20000 in
/-- L2.4c. -/
theorem test_bulk16 :
    outcomeOf (exec .bulk16 (atPhase .bulk16 16
        ([0x00, 0x11, 0x22, 0x33, 0x44, 0x55, 0x66, 0x77] ++ [0x88, 0x99, 0xAA, 0xBB, 0xCC, 0xDD, 0xEE, 0xFF])))
      (fun t => (bytesAt t.mem 0x2000 4 ++ bytesAt t.mem 0x201A 7, t.rs, t.wd, t.rem, t.phase)) =
        some (ascii ['0', '0', '1', '1', 'd', 'd', 'e', 'e', 'f', 'f'] ++ [0x00], 0x1010, 0x2020, 0, .finish) := by
  decide

/-- L2.4f with L2.4e's bytes. -/
theorem test_bulk8 :
    outcomeOf (exec .bulk8 (atPhase .bulk8 15 [0x01, 0x23, 0x45, 0x67, 0x89, 0xAB, 0xCD, 0xEF])) (fun t =>
      (bytesAt t.mem 0x2000 16, t.rs, t.wd, t.rem, t.phase)) =
        some (ascii ['0', '1', '2', '3', '4', '5', '6', '7', '8', '9', 'a', 'b', 'c', 'd', 'e', 'f'],
          0x1008, 0x2010, 7, .rem) := by
  decide

/-- L2.5, R = 7, with the sentinel after the destination. -/
theorem test_rem_7 :
    outcomeOf (exec .rem { atPhase .rem 7 [] with
        mem := (memoryWith 0x1000 [0xF0, 0x0F, 0xA5, 0x5A, 0x99, 0x00, 0x7E]).write 0x200E 0xEE }) (fun t =>
      (bytesAt t.mem 0x200A 5, t.scalar, t.rs, t.wd, t.rem)) =
        some (ascii ['0', '0', '7', 'e'] ++ [0xEE], 0x007E00995AA50FF0, 0x1007, 0x200E, 0) := by
  decide

/-- L2.5, R = 1, and the character of the unused bytes. -/
theorem test_rem_1 :
    outcomeOf (exec .rem (atPhase .rem 1 [0xF0, 0xEE])) (fun t =>
      (bytesAt t.mem 0x2000 3, t.scalar, byteOf t.chars 15, t.phase)) =
        some (ascii ['f', '0'] ++ [0x00], 0xF0, 0x30, .finish) := by
  decide

/-- L2.6. -/
theorem test_fast1 :
    outcomeOf (exec .fast1 (atPhase .fast1 1 [0xAB])) (fun t =>
      (bytesAt t.mem 0x2000 3, t.rs, t.wd, t.rem, t.phase)) =
        some ([0x61, 0x62, 0x00], 0x1001, 0x2002, 0, .finish) := by
  decide

/-- 20_memory.md R40: the events of a step. -/
theorem test_fast1_events :
    outcomeOf (exec .fast1 (atPhase .fast1 1 [0xAB])) State.history =
      some [{ phase := .fast1, reads := [(0x1000, 0xAB)], writes := [(0x2000, 0x61), (0x2001, 0x62)] }] := by
  decide

/-- 44_entry_and_host.md R132. -/
theorem test_finish :
    outcomeOf (exec .finish { atPhase .finish 0 [] with rs := 0x1003, wd := 0x2006 }) (fun t =>
      (t.srcEnd, t.dstEnd, t.done, t.phase)) = some (0x1003, 0x2006, true, .idle) := by
  decide

theorem test_idle : outcomeOf (exec .idle State.reset) id = some State.reset := by decide

/-- 30_encoding.md R67. -/
theorem test_rsvd7 : isRefusal (exec .rsvd7 { State.reset with phase := .rsvd7 }) .reservedPhase = true := by decide

/-- 60_exceptions.md R163: an unreadable source byte makes the engine wait. -/
theorem test_stuck :
    outcomeOf (exec .fast1 { atPhase .fast1 1 [0xAB] with
        config := { Config.standard with
          memMap := [{ base := 0x2000, size := 0x100, canRead := true, canWrite := true }] } })
      (fun t => (t.phase, t.history, t.mem)) = some (.fast1, [], [(0x1000, 0xAB)]) := by
  decide

/-! ## The agents -/

/-- A running job of L1.6d, before its REM step. -/
def running3 : State :=
  { atPhase .rem 3 [0x01, 0x23, 0xFF] with
    src := 0x1000, dst := 0x2000, len := 3
    job := some { src := 0x1000, dst := 0x2000, len := 3, memAtStart := memoryWith 0x1000 [0x01, 0x23, 0xFF] } }

/-- The race vector of L2.9. -/
theorem test_race :
    outcomeOf (hostLine (.memWrite 0x1001 5) running3) State.fault = some (some (.race 0x1001 .write)) ∧
      outcomeOf (hostLine (.memRead 0x2005 none) running3) State.fault = some (some (.race 0x2005 .read)) ∧
      outcomeOf (hostLine (.memRead 0x1001 (some 0)) running3) (fun t => (t.fault, t.temps)) =
        some (none, [(0, 0x23)]) ∧
      outcomeOf (hostLine (.memWrite 0x2006 5) running3) (fun t => (t.fault, t.mem.read 0x2006)) =
        some (none, 5) := by
  decide

/-- L2.11: reset before any step, between the host's lines. -/
theorem test_reset_idle_memory :
    outcomeOf (step { withArguments 1 2 3 with turns := [.reset], mem := [(7, 9)], done := true, srcEnd := 4 })
      (fun t => (t.src, t.srcEnd, t.done, t.mem)) = some (0, 0, false, [(7, 9)]) := by
  decide

/-- 60_exceptions.md R166 (c): a lost access does nothing and the host goes on; R160: with FAULT set it does not. -/
theorem test_reset_loses_access :
    outcomeOf (step { withArguments 1 2 3 with turns := [.resetLost], hostProgram := [wrLine 2 (.lit 9)] })
        (fun t => (t.src, t.hostProgram)) = some (0, []) ∧
      outcomeOf (step { withArguments 1 2 3 with
          turns := [.resetLost], hostProgram := [wrLine 2 (.lit 9)], fault := some (.race 0 .read) })
        (fun t => (t.src, t.hostProgram, t.fault)) = some (0, [wrLine 2 (.lit 9)], some (.race 0 .read)) := by
  decide

/-- 30_encoding.md R71: a line's value may be an earlier read's (L3.4). -/
theorem test_host_line_temp :
    outcomeOf (step { State.reset with hostProgram := [wrLine 2 (.temp 1)], temps := [(1, 0x1001)] }) State.src =
      some 0x1001 := by
  decide

/-- 30_encoding.md R72: ENCODE is eight lines, and START is WR CTRL, 1. -/
theorem test_encode_lines :
    (encodeLines (.lit 0x2000) (.lit 0x1000) (.lit 17) 8 9).length = 8 ∧ startLine = .reg 0x20#6 (.lit 1) none ∧
      rdLine 6 (some 1) = .reg 0x06#6 (.lit 0) (some 1) := by
  decide

/-- The host's probe: the word of a table row is the next thing that runs. -/
theorem test_withFetchWord :
    outcomeOf (step (State.reset.withFetchWord 6 0x07)) State.rdata = some 0x00400020 ∧
      outcomeOf (step (State.reset.withFetchWord 3 0b110)) (fun t => t.done) = some true ∧
      isRefusal (step (State.reset.withFetchWord 3 0b111)) .reservedPhase = true := by
  decide

/-! ## Witnesses: states and operands that meet the hypotheses of the statements -/

/-- A host with one line left, its turn, and the register window at 0x4000. -/
def hostAt (op : HostOp) : State :=
  { State.reset with config := { Config.standard with regBase := 0x4000 }, hostProgram := [op] }

/-- The memory of `running3` admits only its own buffers. -/
def tightMap : List Region :=
  [{ base := 0x1000, size := 3, canRead := true, canWrite := false },
   { base := 0x2000, size := 6, canRead := false, canWrite := true }]

theorem witness_DecodeOfEncodeIsIdentity :
    (Instr.rdRsvd8 8).wellFormed = true ∧ (Instr.rdRsvd8 15).wellFormed = true ∧
      (Instr.rdRsvd16 16).wellFormed = true ∧ (Instr.wrRsvd8 15 3).wellFormed = true ∧
      (Instr.wrRsvd16 31 3).wellFormed = true ∧ (Instr.wrSrc 3).wellFormed = true ∧ Instr.rem.wellFormed = true := by
  decide

theorem witness_EveryCodeMatchesOneRow :
    rowOf (.wrConfig 0) ∈ hostRows ++ phaseRows ∧ (rowOf (.wrConfig 0)).space = (Code.host 0b100111#6 0).space ∧
      rowOf .rem ∈ hostRows ++ phaseRows ∧ (rowOf .rem).space = (Code.phase 0b101#3).space := by
  decide

/-- All four clauses, at both ends of the window and of the index. -/
theorem witness_OnlyAlignedWideWindowAccesses :
    (∀ op ∈ [HostOp.windowRead 0x4000 4 none, .windowRead 0x4004 8 none, .windowRead 0x3FF8 8 none,
        .windowRead 0x4100 8 none, .windowWrite 0x40FC [0, 0, 0, 0, 0, 0, 0, 0], .windowWrite 0x4010 [1, 0],
        .windowRead (0x4000 + 8 * (0#5).toNat) 8 none, .windowRead (0x4000 + 8 * (31#5).toNat) 8 (some 1),
        .windowWrite (0x4000 + 8 * (0#5).toNat) [1, 0, 0, 0, 0, 0, 0, 0],
        .windowWrite (0x4000 + 8 * (31#5).toNat) [1, 0, 0, 0, 0, 0, 0, 0]],
      (hostAt op).fault = none ∧ (hostAt op).config.regBase % 256 = 0 ∧ nextTurn (hostAt op) = .host ∧
        (hostAt op).hostProgram = [op]) ∧
      (4 ≠ 8 ∧ 0x4004 % 8 ≠ 0 ∧ 0x3FF8 < 0x4000 ∧ 0x4000 + 256 ≤ 0x4100 ∧ 0x40FC % 8 ≠ 0) := by
  decide

/-- A read, a literal write, a write of an earlier read's name, and of a name that nothing has read. -/
theorem witness_StepRunsTheHostLine :
    (∀ op ∈ [HostOp.reg 0x01#6 (.lit 0) (some 0), .reg 0x22#6 (.lit 0x1000) none, .reg 0x22#6 (.temp 1) none],
      nextTurn (hostAt op) = .host ∧ (hostAt op).hostProgram = [op]) ∧
      Denotes (hostAt (.reg 0x22#6 (.lit 0x1000) none)) (.lit 0x1000) 0x1000 ∧
      Denotes { hostAt (.reg 0x22#6 (.temp 1) none) with temps := [(1, 0x1001)] } (.temp 1) 0x1001 ∧
      lookupTemp 1 (hostAt (.reg 0x22#6 (.temp 1) none)).temps = none ∧
      (hostAt (.reg 0x22#6 (.temp 1) none)).fault = none :=
  ⟨by decide, .inl rfl, .inr ⟨1, rfl, by decide⟩, by decide, by decide⟩

theorem witness_StepRunsThePhase : nextTurn State.reset = .engine ∧ nextTurn running3 = .engine := by decide

/-- The largest word of each space. -/
theorem witness_FetchWordRunsNext : 63 < 64 ∧ 7 < 8 ∧ 0 < 8 := by decide

theorem witness_WaitLinesRepeat :
    State.reset.fault = none ∧ State.reset.phase = .idle ∧ running3.fault = none ∧ running3.phase ≠ .idle ∧
      ({ State.reset with done := true } : State).fault = none := by
  decide

theorem witness_Reads : State.reset.fault = none ∧ running3.fault = none := by decide

theorem witness_RdStatusReturnsDoneAndBusy :
    ∀ s ∈ [State.reset, running3, { State.reset with done := true }],
      s.fault = none ∧ (s.done = true → s.phase = .idle) := by
  decide

theorem witness_RdReservedReturnsZero :
    ∀ d ∈ [0x08#6, 0x0F#6, 0x10#6, 0x1F#6], 0x08 ≤ d.toNat ∧ d.toNat ≤ 0x1F := by
  decide

theorem witness_ReadOnlyAndReservedWritesAreIgnored :
    ∀ d ∈ [0x28#6, 0x2F#6, 0x30#6, 0x3F#6], 0x28 ≤ d.toNat := by
  decide

/-- Both widths, idle and busy. -/
theorem witness_ArgumentWritesOnlyWhileIdle :
    State.reset.fault = none ∧ State.reset.phase = .idle ∧ running3.phase ≠ .idle ∧
      (5 : Word) = (match running3.config.addrW with
        | .w32 => ((5 : Word).extractLsb' 0 32).setWidth 64 | .w64 => 5) ∧
      (withArguments32 0 0 0).fault = none ∧
      (0x1000 : Word) = (match (withArguments32 0 0 0).config.addrW with
        | .w32 => ((0xFFFFFFFF00001000 : Word).extractLsb' 0 32).setWidth 64 | .w64 => 0xFFFFFFFF00001000) := by
  decide

/-- One state for each branch: idle and accepted, each fault, each entry phase, busy. -/
theorem witness_WrCtrlStartsAJobOrNothing :
    ∀ s ∈ [withArguments 0x1000 0x2000 0, withArguments 0x1000 0x2000 1, withArguments 0x1000 0x2000 3,
        withArguments 0x1000 0x1000 1, withArguments 0x1000 0xFFFFFFFFFFFFFFFF 1,
        withArguments32 0xFFFFFFFF 0x1000 1, running3],
      s.fault = none ∧ RegistersFit s := by
  intro s hs
  simp only [List.mem_cons, List.not_mem_nil, or_false] at hs
  rcases hs with rfl | rfl | rfl | rfl | rfl | rfl | rfl <;> exact ⟨by decide, by constructor <;> decide⟩

set_option maxRecDepth 20000 in
/-- Each width, at the smallest count its guard admits. -/
theorem witness_BulkStepsEncodeTheirBatch :
    ∀ x ∈ [(Phase.bulk32, 32, Instr.bulk32), (Phase.bulk16, 16, Instr.bulk16), (Phase.bulk8, 8, Instr.bulk8)],
      let s := atPhase x.1 (BitVec.ofNat 64 x.2.1) [0x12, 0x34]
      x ∈ [(Phase.bulk32, 32, Instr.bulk32), (Phase.bulk16, 16, Instr.bulk16), (Phase.bulk8, 8, Instr.bulk8)] ∧
        s.fault = none ∧ s.phase = x.1 ∧ x.2.1 ≤ s.rem.toNat ∧ (x.2.1 = 32 → s.config.maxBatch = .b32) ∧
        s.mem.wf = true ∧ (∀ k < x.2.1, readable s.config (portAddr s.config s.rs k) = true) ∧
        (∀ k < 2 * x.2.1, writable s.config (portAddr s.config s.wd k) = true) := by
  decide

/-- The smallest and the largest remainder. -/
theorem witness_RemStepEncodesTheRemainder :
    ∀ s ∈ [atPhase .rem 1 [0xF0], atPhase .rem 7 [0xF0, 0x0F, 0xA5, 0x5A, 0x99, 0x00, 0x7E]],
      s.fault = none ∧ s.phase = .rem ∧ 1 ≤ s.rem.toNat ∧ s.rem.toNat ≤ 7 ∧ s.mem.wf = true ∧
        (∀ k < s.rem.toNat, readable s.config (portAddr s.config s.rs k) = true) ∧
        (∀ k < 2 * s.rem.toNat, writable s.config (portAddr s.config s.wd k) = true) := by
  decide

/-- The state of Fast1EncodesOneByte and of Fast1EqualsRemOfOneByte. -/
theorem witness_Fast1EncodesOneByte :
    let s := atPhase .fast1 1 [0xAB]
    s.fault = none ∧ s.phase = .fast1 ∧ s.rem.toNat = 1 ∧ s.mem.wf = true ∧
      readable s.config (portAddr s.config s.rs 0) = true ∧ writable s.config (portAddr s.config s.wd 0) = true ∧
      writable s.config (portAddr s.config s.wd 1) = true := by
  decide

/-- A finish in the middle of memory and one whose cursors have wrapped to 0. -/
theorem witness_FinishReportsTheEndCursors :
    ∀ s ∈ [{ atPhase .finish 0 [] with rs := 0x1003, wd := 0x2006 }, { atPhase .finish 0 [] with rs := 0, wd := 0 }],
      s.fault = none ∧ s.phase = .finish ∧ s.rem.toNat = 0 ∧ RegistersFit s := by
  intro s hs
  simp only [List.mem_cons, List.not_mem_nil, or_false] at hs
  rcases hs with rfl | rfl <;> exact ⟨by decide, by decide, by decide, by constructor <;> decide⟩

theorem witness_IdleKeepsEverything : State.reset.fault = none ∧ State.reset.phase = .idle := by decide

theorem witness_ReservedPhaseIsRefused :
    let s := atPhase .rsvd7 0 []
    s.fault = none ∧ s.phase = .rsvd7 := by
  decide

/-- Each guard, at the count next to its bound. -/
theorem witness_FalseGuardsAreRefused :
    ((atPhase .bulk32 31 []).fault = none ∧ (atPhase .bulk32 31 []).phase = .bulk32 ∧
        (atPhase .bulk32 31 []).rem.toNat < 32) ∧
      (let s : State := { atPhase .bulk32 32 [] with config := (withArguments32 0 0 0).config }
       s.fault = none ∧ s.phase = .bulk32 ∧ s.config.maxBatch ≠ .b32) ∧
      ((atPhase .bulk16 15 []).phase = .bulk16 ∧ (atPhase .bulk16 15 []).rem.toNat < 16) ∧
      ((atPhase .bulk8 7 []).phase = .bulk8 ∧ (atPhase .bulk8 7 []).rem.toNat < 8) ∧
      ((atPhase .rem 0 []).phase = .rem ∧ (atPhase .rem 0 []).rem.toNat = 0) ∧
      ((atPhase .rem 8 []).phase = .rem ∧ 7 < (atPhase .rem 8 []).rem.toNat) ∧
      ((atPhase .finish 1 []).phase = .finish ∧ (atPhase .finish 1 []).rem.toNat ≠ 0) := by
  decide

/-- An unreadable source byte and an unwritable destination byte, each the last of its buffer. -/
theorem witness_StuckEngineWaits :
    (let s : State := { atPhase .rem 4 [] with
        config := { Config.standard with memMap := tightMap }, hostProgram := [.waitDone none] }
     s.fault = none ∧ phaseGuard s s.phase = true ∧ s.turns = [] ∧ s.hostProgram ≠ [] ∧
       (∃ k < phaseBytes s s.phase, readable s.config (portAddr s.config s.rs k) = false)) ∧
      (let s : State := { atPhase .rem 3 [] with
        wd := 0x2001, config := { Config.standard with memMap := tightMap }, hostProgram := [.waitDone none] }
       s.fault = none ∧ phaseGuard s s.phase = true ∧ s.turns = [] ∧ s.hostProgram ≠ [] ∧
         (∃ k < 2 * phaseBytes s s.phase, writable s.config (portAddr s.config s.wd k) = false)) := by
  decide

/-- All turns of a faulted machine; the reset turn answers a next state. -/
theorem witness_SetFaultStopsEveryAgent :
    let r := UB.precondOverlap 0x1000 0x1000 1
    let s : State := { withArguments 0x1000 0x1000 1 with fault := some r }
    (nextTurn s = .engine ∧ s.fault = some r) ∧
      (nextTurn { s with turns := [.host] } = .host) ∧ (∃ t, step { s with turns := [.reset] } = .next t) ∧
      (∃ t, step { s with turns := [.resetLost], hostProgram := [wrLine 2 (.lit 1)] } = .next t) :=
  ⟨by decide, by decide, ⟨_, rfl⟩, _, rfl⟩

/-- The three clauses at the ends of both buffers of L2.9's race vector. -/
theorem witness_HostAccessToRunningBuffersRaces :
    running3.fault = none ∧ running3.phase ≠ .idle ∧
      running3.job = some ⟨0x1000, 0x2000, 3, memoryWith 0x1000 [0x01, 0x23, 0xFF]⟩ ∧
      (∀ a ∈ [0x2000, 0x2005], (0x2000#64).toNat ≤ a ∧ a < (0x2000#64).toNat + 2 * (3#64).toNat) ∧
      (∀ a ∈ [0x1000, 0x1002], ((0x1000#64).toNat ≤ a ∧ a < (0x1000#64).toNat + (3#64).toNat) ∧
        ¬((0x2000#64).toNat ≤ a ∧ a < (0x2000#64).toNat + 2 * (3#64).toNat) ∧
        readable running3.config a = true) := by
  decide

/-- Idle, and beside a running job's buffers; admitted and not. -/
theorem witness_HostAccessOutsideBuffersCompletes :
    (State.reset.fault = none ∧ State.reset.mem.wf = true ∧ State.reset.phase = .idle ∧
        readable State.reset.config 0x2000 = true ∧ writable State.reset.config 0x2000 = true ∧
        readable State.reset.config (2 ^ 64) = false ∧ writable State.reset.config (2 ^ 64) = false) ∧
      (running3.fault = none ∧ running3.mem.wf = true ∧
        ∀ a ∈ [0x0FFF, 0x1003, 0x1FFF, 0x2006], ∀ j, running3.job = some j →
          ¬(j.dst.toNat ≤ a ∧ a < j.dst.toNat + 2 * j.len.toNat) ∧
            ¬(j.src.toNat ≤ a ∧ a < j.src.toNat + j.len.toNat)) := by
  refine ⟨by decide, by decide, by decide, fun a ha j hj => ?_⟩
  cases hj
  revert a
  decide

theorem witness_ResetTurnResetsTheBlock :
    nextTurn { running3 with turns := [.reset] } = .reset ∧
      nextTurn { State.reset with turns := [.resetLost] } = .resetLost ∧ State.reset.phase = .idle := by
  decide

theorem witness_ResetDuringAJobLeavesOldOrNewBytes :
    ∀ tn ∈ [Turn.reset, .resetLost],
      let s : State := { running3 with turns := [tn] }
      nextTurn s = tn ∧ s.phase ≠ .idle ∧ s.job.isSome = true ∧ s.mem.wf = true := by
  decide

/-- One state for each line. -/
theorem witness_LostAccessLetsTheHostGoOn :
    ∀ op ∈ [HostOp.reg 0x01#6 (.lit 0) (some 0), .reg 0x22#6 (.lit 1) none, .windowRead 0x4000 4 (some 0),
        .windowWrite 0x4000 [1], .waitDone none, .waitIdle none, .memRead 0 none, .memWrite 0 1],
      let s : State := { hostAt op with turns := [.resetLost] }
      nextTurn s = .resetLost ∧ s.fault = none ∧ s.hostProgram = [op] := by
  decide

theorem witness_StatusReadAroundFinishHasBothOrders :
    ∀ ts ∈ [[Turn.host, .engine], [.engine, .host]],
      let s : State := { atPhase .finish 0 [] with
        hostProgram := [.reg 0x01#6 (.lit 0) (some 0)], turns := ts }
      s.fault = none ∧ s.phase = .finish ∧ s.done = false ∧ s.rem.toNat = 0 ∧
        s.hostProgram = [.reg 0x01#6 (.lit 0) (some 0)] := by
  decide

/-- A read, an argument write, and a START. -/
theorem witness_HostAccessesTouchNoMemory :
    (isHostAccess .rdStatus = true ∧ ∃ t, exec .rdStatus running3 = .next t) ∧
      (isHostAccess (.wrSrc 3) = true ∧ ∃ t, exec (.wrSrc 3) State.reset = .next t) ∧
      (isHostAccess (.wrCtrl 1) = true ∧ ∃ t, exec (.wrCtrl 1) (withArguments 0x1000 0x2000 3) = .next t) :=
  ⟨⟨rfl, _, rfl⟩, ⟨rfl, _, rfl⟩, rfl, _, rfl⟩

/-- A REM step and a FINISH step. -/
theorem witness_EngineStepsKeepTheArguments :
    (isHostAccess .rem = false ∧ ∃ t, exec .rem running3 = .next t) ∧
      (isHostAccess .finish = false ∧ ∃ t, exec .finish (atPhase .finish 0 []) = .next t) :=
  ⟨⟨rfl, _, rfl⟩, rfl, _, rfl⟩

theorem running3_cursors : ∀ j, running3.job = some j → CursorsFollowJob running3 j := by
  intro j hj
  cases hj
  constructor <;> decide

theorem witness_MemoryCanonical : MemoryCanonical running3 ∧ ∃ t, step running3 = .next t := by
  refine ⟨⟨by decide, fun j hj => ?_⟩, _, rfl⟩
  cases hj
  decide

theorem witness_RegistersFit : RegistersFit running3 ∧ ∃ t, step running3 = .next t :=
  ⟨by constructor <;> decide, _, rfl⟩

theorem witness_SequencerSound : RegistersFit running3 ∧ SequencerSound running3 ∧ ∃ t, step running3 = .next t := by
  refine ⟨by constructor <;> decide, ⟨by decide, by decide, by decide, by decide, fun _ => ?_⟩, _, rfl⟩
  exact ⟨_, rfl, running3_cursors _ rfl⟩

/-- The hypotheses of StepKeepsJobDataSound beside those above, in the same state. -/
theorem witness_JobDataSound : JobDataSound running3 := by
  intro _ j hj
  cases hj
  have h : running3.len.toNat - running3.rem.toNat = 0 := by decide
  rw [h]
  exact ⟨fun i hi => absurd hi (Nat.not_lt_zero i), fun i _ _ => rfl, fun i _ => rfl⟩

theorem witness_EngineStaysInsideTheJobBuffers : nextTurn running3 = .engine ∧ ∃ t, step running3 = .next t :=
  ⟨by decide, _, rfl⟩

theorem witness_ConfigIsConstantAndHistoryGrows :
    (∃ t, step running3 = .next t) ∧ (∃ t, step { running3 with turns := [.reset] } = .next t) ∧
      ∃ t, step (hostAt (.waitIdle none)) = .next t :=
  ⟨⟨_, rfl⟩, ⟨_, rfl⟩, _, rfl⟩

/-- A job of n bytes from 0x1000 to 0x2000 in a memory that admits it. -/
theorem readyToStart_of {len : Word} (h : len.toNat ≤ 64) : ReadyToStart (withArguments 0x1000 0x2000 len) := by
  have hp : (2 : Nat) ^ 64 = 18446744073709551616 := by decide
  have hb : addrBits Config.standard = 64 := rfl
  have hs : (0x1000#64).toNat = 0x1000 := by decide
  have hd : (0x2000#64).toNat = 0x2000 := by decide
  refine ⟨rfl, rfl, rfl, rfl, rfl, ⟨(0x1000#64).isLt, (0x2000#64).isLt, len.isLt, (0#64).isLt, (0#64).isLt,
    (0#64).isLt, (0#64).isLt, (0#64).isLt⟩, ?_, ?_, fun i hi => ?_, fun i hi => ?_⟩
  · simp [withArguments, State.reset, State.resetWith, noWrap, hb]
    omega
  · simp [withArguments, State.reset, State.resetWith, noOverlap]
    omega
  · simp [withArguments, State.reset, State.resetWith, readable, regionHolds, Config.standard, addrBits] at hi ⊢
    omega
  · simp [withArguments, State.reset, State.resetWith, writable, regionHolds, Config.standard, addrBits] at hi ⊢
    omega

/-- The empty job, the single byte, a remainder, and a job of every batch. -/
theorem witness_Jobs :
    ReadyToStart (withArguments 0x1000 0x2000 0) ∧ ReadyToStart (withArguments 0x1000 0x2000 1) ∧
      ReadyToStart (withArguments 0x1000 0x2000 3) ∧ ReadyToStart (withArguments 0x1000 0x2000 63) :=
  ⟨readyToStart_of (by decide), readyToStart_of (by decide), readyToStart_of (by decide),
    readyToStart_of (by decide)⟩

/-- L3.4's two one-byte jobs. -/
theorem witness_ChainedJobsEqualOneJob :
    (1#64).toNat + (1#64).toNat < 2 ^ 64 ∧
      ReadyToStart { withArguments 0x1000 0x2000 0 with len := (1#64) + (1#64) } :=
  ⟨by decide, readyToStart_of (len := 2) (by decide)⟩

theorem witness_TransformLosesNothing : xform [0x12, 0x34] = xform [0x12, 0x34] := rfl

/-- Another operation than FINISH that answers a next state, and a START that clears DONE. -/
theorem witness_RdEndCursorsReturnTheRegisters :
    (∃ t, exec .rem running3 = .next t) ∧ Instr.rem ≠ .finish ∧
      (let s : State := { withArguments 0x1000 0x2000 3 with done := true }
       s.done = true ∧ ∃ t, exec (.wrCtrl 1) s = .next t ∧ t.done = false) :=
  ⟨⟨_, rfl⟩, by decide, rfl, _, rfl, rfl⟩

theorem witness_StepNeverEntersTheReservedPhase : running3.phase ≠ .rsvd7 ∧ ∃ t, step running3 = .next t :=
  ⟨by decide, _, rfl⟩

end Sys2Proof.Tests
end

section
/-! The engine's turn from the inside: what it answers in each busy phase of a job whose memory events are admitted. -/

namespace Sys2Proof.Machine

/-- `t` is `s` after the engine's data step, which consumed `n` bytes: at least 8, or all that remained. -/
structure DataStepTo (s t : State) (n : Nat) : Prop where
  pos : 0 < n
  le : n ≤ s.rem.toNat
  large : 8 ≤ n ∨ n = s.rem.toNat
  encodes : EncodesAtCursors s t n
  phase : t.phase = nextPhase s.config (s.rem.toNat - n)
  canonical : t.mem.wf = true

/-- With nothing left to encode, the batch multiplexer selects FINISH (41_bulk.md R97). -/
@[simp] theorem nextPhase_zero (c : Config) : nextPhase c 0 = .finish := by
  simp [nextPhase]

theorem dataStepTo_afterBulk {s : State} {b : Nat} (hm : s.mem.wf = true) (h8 : 8 ≤ b) (h32 : b ≤ 32)
    (hb : b ≤ s.rem.toNat) : DataStepTo s (afterBulk b s) b where
  pos := by omega
  le := hb
  large := .inl h8
  encodes := dataStep_encodes s b _ hm h32 hb
  phase := rfl
  canonical := Memory.wf_store _ hm

theorem dataStepTo_afterRem {s : State} (hm : s.mem.wf = true) (h1 : 1 ≤ s.rem.toNat) (h7 : s.rem.toNat ≤ 7) :
    DataStepTo s (afterRem s) s.rem.toNat where
  pos := h1
  le := le_rfl
  large := .inr rfl
  encodes := (dataStep_encodes s _ .finish hm (by omega) le_rfl).override _ _ _ (by simp)
  phase := by simp [afterRem]
  canonical := Memory.wf_store _ hm

theorem dataStepTo_afterFast1 {s : State} (hm : s.mem.wf = true) (h1 : s.rem.toNat = 1) :
    DataStepTo s (afterFast1 s) 1 where
  pos := Nat.one_pos
  le := h1.ge
  large := .inr h1.symm
  encodes := (dataStep_encodes s 1 .finish hm (by omega) h1.ge).override 0 s.scalar s.chars (by simp [h1])
  phase := by simp [afterFast1, h1]
  canonical := Memory.wf_store _ hm

theorem engineTurn_bulk {s : State} {p : Phase} {b : Nat} (hf : s.fault = none) (hp : s.phase = p)
    (hb : p = .bulk32 ∧ b = 32 ∨ p = .bulk16 ∧ b = 16 ∨ p = .bulk8 ∧ b = 8)
    (hg : phaseGuard s p = true) (ha : admitted s b = true) : engineTurn s = .next (afterBulk b s) := by
  have h : bulkStep p b s = .next (afterBulk b s) := (engineEnabled_of hf hp _).trans (guardedData_of hg ha)
  unfold engineTurn
  rw [engineInstr_eq, hp]
  rcases hb with ⟨rfl, rfl⟩ | ⟨rfl, rfl⟩ | ⟨rfl, rfl⟩
  · exact h
  · exact h
  · exact h

theorem engineTurn_rem {s : State} (hf : s.fault = none) (hp : s.phase = .rem) (hg : phaseGuard s .rem = true)
    (ha : admitted s s.rem.toNat = true) : engineTurn s = .next (afterRem s) := by
  have h7 : s.rem.toNat ≤ 7 := (of_decide_eq_true hg).2
  unfold engineTurn afterRem
  rw [engineInstr_eq, hp, ← remOut_eq_xform s _ (by omega)]
  exact (engineEnabled_of hf hp _).trans (guardedData_of hg ha)

theorem engineTurn_fast1 {s : State} (hf : s.fault = none) (hp : s.phase = .fast1) (ha : admitted s 1 = true) :
    engineTurn s = .next (afterFast1 s) := by
  unfold engineTurn afterFast1
  rw [engineInstr_eq, hp, ← fastOut_eq_xform s]
  exact (engineEnabled_of hf hp _).trans (guardedData_of rfl ha)

theorem engineTurn_finish {s : State} (hf : s.fault = none) (hp : s.phase = .finish) (hr : s.rem.toNat = 0) :
    engineTurn s = .next (finishJob s) := by
  unfold engineTurn
  rw [engineInstr_eq, hp]
  exact (engineEnabled_of hf hp _).trans (if_pos (decide_eq_true hr))

/-- With bytes left and every event admitted, the phase the sequencer chose makes a data step (41_bulk.md R97, R98). -/
theorem engineTurn_dataStepTo {s : State} (hf : s.fault = none) (hm : s.mem.wf = true)
    (hp : s.phase = nextPhase s.config s.rem.toNat ∨ s.phase = .fast1 ∧ s.rem.toNat = 1)
    (hr : 0 < s.rem.toNat) (ha : ∀ n ≤ s.rem.toNat, admitted s n = true) :
    ∃ t n, engineTurn s = .next t ∧ DataStepTo s t n := by
  rcases hp with hp | ⟨hp, h1⟩
  · rcases nextPhase_cases s.config s.rem.toNat with ⟨hn, hb, hc⟩ | ⟨hn, hb⟩ | ⟨hn, hb, -⟩ | ⟨hn, h1, h7⟩ | ⟨-, h0⟩
    · exact ⟨_, 32, engineTurn_bulk hf (hp.trans hn) (.inl ⟨rfl, rfl⟩) (by simp [phaseGuard, hb, hc]) (ha _ hb),
        dataStepTo_afterBulk hm (by omega) le_rfl hb⟩
    · exact ⟨_, 16, engineTurn_bulk hf (hp.trans hn) (.inr (.inl ⟨rfl, rfl⟩)) (by simp [phaseGuard, hb]) (ha _ hb),
        dataStepTo_afterBulk hm (by omega) (by omega) hb⟩
    · exact ⟨_, 8, engineTurn_bulk hf (hp.trans hn) (.inr (.inr ⟨rfl, rfl⟩)) (by simp [phaseGuard, hb]) (ha _ hb),
        dataStepTo_afterBulk hm le_rfl (by omega) hb⟩
    · exact ⟨_, _, engineTurn_rem hf (hp.trans hn) (by simp [phaseGuard, h7]; omega) (ha _ le_rfl),
        dataStepTo_afterRem hm h1 h7⟩
    · omega
  · exact ⟨_, 1, engineTurn_fast1 hf hp (ha _ h1.ge), dataStepTo_afterFast1 hm h1⟩

/-- With no turn listed and the host's program over, the machine's step is the engine's turn (log 9). -/
theorem step_eq_engineTurn {s : State} (ht : s.turns = []) (hh : s.hostProgram = []) : step s = engineTurn s := by
  have hpop : popTurn s = s := by
    unfold popTurn
    rw [ht, List.tail_nil, ← ht]
  have hnext : nextTurn s = .engine := by simp [nextTurn, ht, hh]
  simp only [step, takeTurn, hnext, hpop]

theorem runSteps_succ {s t : State} (h : step s = .next t) (k : Nat) : runSteps (k + 1) s = runSteps k t := by
  simp only [runSteps, h]

end Sys2Proof.Machine
end

section
/-! A job run by the engine alone: the states between its START and its FINISH, and the induction over its data steps
that every statement about a whole job needs. -/

namespace Sys2Proof.Machine

/-- The phase of a job of `len` bytes of which `k` are encoded (44_entry_and_host.md R134, 41_bulk.md R97). -/
def jobPhase (c : Config) (len k : Nat) : Phase := if k = 0 then entryPhase c len else nextPhase c (len - k)

/-- Only at its entry does a job's phase differ from the multiplexer's: FAST1 for a single byte. -/
theorem jobPhase_cases (c : Config) (len k : Nat) :
    jobPhase c len k = nextPhase c (len - k) ∨ jobPhase c len k = .fast1 ∧ len - k = 1 := by
  unfold jobPhase
  split_ifs with hk
  · subst hk
    rcases entryPhase_cases c len with ⟨he, rfl⟩ | ⟨he, h1⟩ | ⟨he, -⟩
    · exact .inl (by simp [he])
    · exact .inr ⟨he, h1⟩
    · exact .inl he
  · exact .inl rfl

/-- `t` is a state of the job started in `s`, which the engine runs alone, when `k` source bytes are encoded and FINISH
is still to come. -/
structure JobRunning (s t : State) (k : Nat) : Prop where
  live : t.fault = none
  noProgram : t.hostProgram = []
  noTurns : t.turns = []
  config : t.config = s.config
  canonical : t.mem.wf = true
  le : k ≤ s.len.toNat
  rem : t.rem.toNat = s.len.toNat - k
  rs : t.rs.toNat = (s.src.toNat + k) % 2 ^ addrBits s.config
  wd : t.wd.toNat = (s.dst.toNat + 2 * k) % 2 ^ addrBits s.config
  phase : t.phase = jobPhase s.config s.len.toNat k

theorem ReadyToStart.exec_start {s : State} (h : ReadyToStart s) : exec (.wrCtrl 1) s = .next (startJob s) := by
  have hstart : start s = startJob s := by
    simp only [start, preconditionFailure_eq_none.mpr ⟨h.noWrap, h.noOverlap⟩]
  have hcond : (startStrobe 1 && !busy s) = true := by simp [startStrobe, busy, h.idle]
  exact (hostEnabled_of_none h.live _).trans (by rw [if_pos hcond, hstart])

theorem ReadyToStart.jobRunning_startJob {s : State} (h : ReadyToStart s) : JobRunning s (startJob s) 0 where
  live := h.live
  noProgram := h.noProgram
  noTurns := h.noTurns
  config := rfl
  canonical := h.canonical
  le := Nat.zero_le _
  rem := by simpa using Nat.mod_eq_of_lt h.fit.len
  rs := by simp
  wd := by simp
  phase := by simp [jobPhase]

section
variable {s t u : State} {k n : Nat} (hs : ReadyToStart s) (h : JobRunning s t k)
include hs h

/-- The read cursor's addresses are the source's, with no wrap before its end (41_bulk.md R99). -/
theorem JobRunning.readAddr {i : Nat} (hi : k + i < s.len.toNat) :
    portAddr t.config t.rs i = s.src.toNat + (k + i) := by
  have hw := (noWrap_iff.mp hs.noWrap).1
  rw [portAddr, h.config, h.rs, Nat.mod_eq_of_lt (a := s.src.toNat + k) (by omega), Nat.add_assoc,
    Nat.mod_eq_of_lt (by omega)]

/-- The write cursor's addresses are the destination's, with no wrap before its end (41_bulk.md R99). -/
theorem JobRunning.writeAddr {j : Nat} (hj : 2 * k + j < 2 * s.len.toNat) :
    portAddr t.config t.wd j = s.dst.toNat + (2 * k + j) := by
  have hw := (noWrap_iff.mp hs.noWrap).2
  rw [portAddr, h.config, h.wd, Nat.mod_eq_of_lt (a := s.dst.toNat + 2 * k) (by omega), Nat.add_assoc,
    Nat.mod_eq_of_lt (by omega)]

theorem JobRunning.admitted (hn : n ≤ t.rem.toNat) : admitted t n = true := by
  have hle := h.le
  rw [h.rem] at hn
  refine admitted_iff.mpr ⟨fun i hi => ?_, fun j hj => ?_⟩
  · rw [h.readAddr hs (by omega), h.config]
    exact hs.readable _ (by omega)
  · rw [h.writeAddr hs (by omega), h.config]
    exact hs.writable _ (by omega)

/-- While source bytes are left, the machine's step is a data step of the job. -/
theorem JobRunning.step_dataStepTo (hk : k < s.len.toNat) : ∃ u n, step t = .next u ∧ DataStepTo t u n := by
  rw [step_eq_engineTurn h.noTurns h.noProgram]
  refine engineTurn_dataStepTo h.live h.canonical ?_ (by have := h.rem; omega) fun n hn => h.admitted hs hn
  rw [h.phase, h.rem, h.config]
  exact jobPhase_cases _ _ _

end

section
variable {s t u : State} {k n : Nat} (h : JobRunning s t k)
include h

theorem JobRunning.add_le (hd : DataStepTo t u n) : k + n ≤ s.len.toNat := by
  have := h.le
  have := h.rem
  have := hd.le
  omega

/-- A data step of `n` bytes leaves the job running, `n` bytes further on. -/
theorem JobRunning.next (hd : DataStepTo t u n) : JobRunning s u (k + n) where
  live := (congrArg State.fault hd.encodes.frame).trans h.live
  noProgram := (congrArg State.hostProgram hd.encodes.frame).trans h.noProgram
  noTurns := (congrArg State.turns hd.encodes.frame).trans h.noTurns
  config := (congrArg State.config hd.encodes.frame).trans h.config
  canonical := hd.canonical
  le := h.add_le hd
  rem := by rw [hd.encodes.rem, h.rem, Nat.sub_sub]
  rs := by rw [hd.encodes.rs, h.rs, h.config, Nat.mod_add_mod, Nat.add_assoc]
  wd := by rw [hd.encodes.wd, h.wd, h.config, Nat.mod_add_mod, Nat.mul_add, Nat.add_assoc]
  phase := by
    have := hd.pos
    rw [hd.phase, h.config, h.rem, Nat.sub_sub, jobPhase, if_neg (by omega)]

end

/-- Once every source byte is encoded, the machine's step is FINISH. -/
theorem JobRunning.step_finish {s t : State} (h : JobRunning s t s.len.toNat) : step t = .next (finishJob t) := by
  have h0 : t.rem.toNat = 0 := by rw [h.rem, Nat.sub_self]
  have hp : t.phase = .finish := by
    rcases jobPhase_cases s.config s.len.toNat s.len.toNat with hj | ⟨-, hj⟩
    · rw [h.phase, hj, Nat.sub_self, nextPhase_zero]
    · omega
  rw [step_eq_engineTurn h.noTurns h.noProgram, engineTurn_finish h.live hp h0]

section
variable {s : State} (hs : ReadyToStart s) {P : Nat → State → Prop}
  (hstep : ∀ {k n : Nat} {t u : State}, JobRunning s t k → DataStepTo t u n → P k t → P (k + n) u)
include hs hstep

/-- From any state of the job the engine finishes it, one step for each eight bytes begun and one for FINISH; a
property that its data steps carry on holds when the last byte is encoded. -/
theorem JobRunning.finishes {k : Nat} {t : State} (h : JobRunning s t k) (hP : P k t) :
    ∃ u m, m ≤ (s.len.toNat - k + 7) / 8 + 1 ∧ runSteps m t = .next (finishJob u) ∧
      JobRunning s u s.len.toNat ∧ P s.len.toNat u := by
  induction hr : s.len.toNat - k using Nat.strong_induction_on generalizing k t with
  | _ r ih =>
    rcases Nat.lt_or_ge k s.len.toNat with hk | hk
    · obtain ⟨t', n, ht, hd⟩ := h.step_dataStepTo hs hk
      have hpos := hd.pos
      have hlarge := hd.large
      have hrem := h.rem
      obtain ⟨u, m, hm, hrun, hu, hPu⟩ :=
        ih (s.len.toNat - (k + n)) (by omega) (h.next hd) (hstep h hd hP) rfl
      exact ⟨u, m + 1, by omega, (runSteps_succ ht m).trans hrun, hu, hPu⟩
    · obtain rfl : k = s.len.toNat := le_antisymm h.le hk
      exact ⟨t, 1, by omega, runSteps_succ h.step_finish 0, h, hP⟩

/-- The induction over a job: a property that holds at its START and that its data steps carry on holds when FINISH
ends it, within the step bound of 44_entry_and_host.md R136. -/
theorem ReadyToStart.job_induction (h0 : P 0 (startJob s)) :
    ∃ u, JobEndsIn s (finishJob u) ∧ JobRunning s u s.len.toNat ∧ P s.len.toNat u := by
  obtain ⟨u, m, hm, hrun, hu, hP⟩ := hs.jobRunning_startJob.finishes hs hstep h0
  exact ⟨u, ⟨startJob s, m, hs.exec_start, by omega, hrun, rfl⟩, hu, hP⟩

end

end Sys2Proof.Machine
end

section
/-! The memory events of a whole job (20_memory.md R46). -/

namespace Sys2Proof.Machine

/-- The source byte events of the first `k` bytes of the job started in `s`, in address order. -/
def sourceReads (s : State) (k : Nat) : List Host.Cell :=
  (List.range k).map fun i => (s.src.toNat + i, s.mem.read (s.src.toNat + i))

/-- The events that write the first `j` bytes of the destination of the job started in `s`, in address order, with the
bytes the memory `m` holds there. -/
def destinationWrites (s : State) (m : Memory) (j : Nat) : List Host.Cell :=
  (List.range j).map fun i => (s.dst.toNat + i, m.read (s.dst.toNat + i))

/-- The events `new`, all since the job's START in `s`, are those of its first `k` source bytes, and the source still
holds what it held at the START. -/
structure TouchedOnce (s t : State) (k : Nat) (new : List StepEvents) : Prop where
  history : t.history = s.history ++ new
  reads : new.flatMap StepEvents.reads = sourceReads s k
  writes : new.flatMap StepEvents.writes = destinationWrites s t.mem (2 * k)
  source : ∀ i < s.len.toNat, t.mem.read (s.src.toNat + i) = s.mem.read (s.src.toNat + i)

theorem touchedOnce_startJob (s : State) : TouchedOnce s (startJob s) 0 [] :=
  ⟨(List.append_nil _).symm, rfl, rfl, fun _ _ => rfl⟩

section
variable {s t u : State} {k n : Nat} (hs : ReadyToStart s) (h : JobRunning s t k) (hd : DataStepTo t u n)
include hs h hd

/-- A data step stores only to its own part of the destination. -/
theorem JobRunning.read_outside {a : Nat} (ha : a < s.dst.toNat + 2 * k ∨ s.dst.toNat + 2 * (k + n) ≤ a) :
    u.mem.read a = t.mem.read a := by
  have hle := h.add_le hd
  refine hd.encodes.elsewhere a fun j hj => ?_
  rw [h.writeAddr hs (by omega)]
  omega

/-- A data step leaves the source alone: the buffers do not overlap (60_exceptions.md R161 (b)). -/
theorem JobRunning.read_source {i : Nat} (hi : i < s.len.toNat) :
    u.mem.read (s.src.toNat + i) = t.mem.read (s.src.toNat + i) := by
  have hle := h.add_le hd
  have hno := noOverlap_iff.mp hs.noOverlap
  exact h.read_outside hs hd (by omega)

/-- The reads of a data step are those of the next `n` source bytes. -/
theorem JobRunning.sourceReads_add
    (hsrc : ∀ i < s.len.toNat, t.mem.read (s.src.toNat + i) = s.mem.read (s.src.toNat + i)) :
    sourceReads s (k + n) = sourceReads s k ++
      (List.range n).map fun i => (portAddr t.config t.rs i, t.mem.read (portAddr t.config t.rs i)) := by
  have hle := h.add_le hd
  rw [sourceReads, List.range_add, List.map_append, List.map_map]
  refine congrArg _ (List.map_congr_left fun i hi => ?_)
  have := List.mem_range.mp hi
  rw [h.readAddr hs (by omega), hsrc _ (by omega)]
  rfl

/-- The writes of a data step are those of the next `2n` destination bytes, and the earlier ones still stand. -/
theorem JobRunning.destinationWrites_add :
    destinationWrites s u.mem (2 * (k + n)) = destinationWrites s t.mem (2 * k) ++
      (List.range (2 * n)).map fun j => (portAddr t.config t.wd j, u.mem.read (portAddr t.config t.wd j)) := by
  have hle := h.add_le hd
  rw [destinationWrites, Nat.mul_add, List.range_add, List.map_append, List.map_map]
  congr 1
  · refine List.map_congr_left fun i hi => ?_
    have := List.mem_range.mp hi
    rw [h.read_outside hs hd (by omega)]
  · refine List.map_congr_left fun j hj => ?_
    have := List.mem_range.mp hj
    rw [h.writeAddr hs (by omega)]
    rfl

theorem TouchedOnce.next {new : List StepEvents} (ht : TouchedOnce s t k new) :
    ∃ new', TouchedOnce s u (k + n) new' := by
  obtain ⟨ev, hev, -, hr, hw⟩ := hd.encodes.history
  refine ⟨new ++ [ev], ?_, ?_, ?_, fun i hi => (h.read_source hs hd hi).trans (ht.source i hi)⟩
  · rw [hev, ht.history, List.append_assoc]
  · rw [List.flatMap_append, List.flatMap_singleton, ht.reads, hr, ← h.sourceReads_add hs hd ht.source]
  · rw [List.flatMap_append, List.flatMap_singleton, ht.writes, hw, ← h.destinationWrites_add hs hd]

end

/-- Settles O49, by the induction over a job's data steps: the events so far are those of the bytes encoded so far. -/
theorem jobTouchesEachBufferByteOnce : Obligations.JobTouchesEachBufferByteOnce := by
  intro s hs
  obtain ⟨u, hu, -, new, hnew⟩ := hs.job_induction (P := fun k t => ∃ new, TouchedOnce s t k new)
    (fun h hd ⟨_, ht⟩ => ht.next hs h hd) ⟨[], touchedOnce_startJob s⟩
  exact ⟨finishJob u, new, hu, hnew.history, .of_eq hnew.reads, .of_eq hnew.writes⟩

end Sys2Proof.Machine
end

section
/-! Access to the register window (30_encoding.md R60, R61): when an access reaches a register index, and the operation
that the index and the packed data word then select; and the refusal of the reserved PHASE code (R67). -/

namespace Sys2Proof.Machine

@[simp] theorem descWrite_mkDesc (write : Bool) (idx : BitVec 5) : descWrite (mkDesc write idx) = write := by
  revert write idx
  decide

@[simp] theorem descIdx_mkDesc (write : Bool) (idx : BitVec 5) : descIdx (mkDesc write idx) = idx := by
  revert write idx
  decide

/-- A read through the register port runs the read of its index and binds the read's name (30_encoding.md R60, R71). -/
theorem hostAccess_read (idx : BitVec 5) (wdata : Word) (dest : Option Nat) (s : State) :
    hostAccess (mkDesc false idx) wdata dest s = andThen (exec (decodeRead idx) s) (bindRead dest) := by
  simp [hostAccess, decodeHost]

@[simp] theorem andThen_id (o : Host.Outcome State Fault Refusal) : andThen o id = o := by
  cases o <;> rfl

/-- A write through the register port runs the write of its index and binds no name (30_encoding.md R60). -/
theorem hostAccess_write (idx : BitVec 5) (wdata : Word) (dest : Option Nat) (s : State) :
    hostAccess (mkDesc true idx) wdata dest s = exec (decodeWrite idx wdata) s := by
  simp [hostAccess, decodeHost]

/-- What 30_encoding.md R61 gives no meaning: another width, another alignment, or outside the register window. -/
theorem decodeWindow_eq_error {regBase addr width : Nat}
    (h : width ≠ 8 ∨ addr % 8 ≠ 0 ∨ addr < regBase ∨ regBase + 256 ≤ addr) :
    decodeWindow regBase addr width = .error (.badRegisterAccess addr width) :=
  if_neg (by omega)

/-- The wide, aligned accesses inside the window reach every register index (30_encoding.md R60). -/
theorem decodeWindow_eq_ok {regBase : Nat} (h : regBase % 256 = 0) (idx : BitVec 5) :
    decodeWindow regBase (regBase + 8 * idx.toNat) 8 = .ok idx := by
  have hlt := idx.isLt
  have hidx : BitVec.ofNat 5 ((regBase + 8 * idx.toNat - regBase) / 8) = idx := by simp
  rw [decodeWindow, if_pos (by omega), hidx]

/-- The first byte of a packed byte string is its least significant one (20_memory.md R42). -/
theorem pack_cons (w : Nat) (b : Byte) (bs : List Byte) : pack (w + 8) (b :: bs) = pack w bs ++ b := by
  apply BitVec.eq_of_toNat_eq
  have hb : b.toNat < 2 ^ 8 := b.isLt
  have hmod : (b.toNat + 256 * packNat bs) % 2 ^ (w + 8) = packNat bs % 2 ^ w * 2 ^ 8 + b.toNat := by
    have hdiv : (b.toNat + 256 * packNat bs) / 2 ^ 8 = packNat bs := by omega
    rw [Nat.pow_add, Nat.mul_comm (2 ^ w), Nat.mod_mul, hdiv]
    omega
  rw [BitVec.toNat_append, ← Nat.shiftLeft_add_eq_or_of_lt hb, Nat.shiftLeft_eq]
  simpa only [pack, packNat, BitVec.toNat_ofNat] using hmod

/-- Eight bytes pack into one little-endian word (20_memory.md R42). -/
theorem pack_eight (b0 b1 b2 b3 b4 b5 b6 b7 : Byte) :
    pack 64 [b0, b1, b2, b3, b4, b5, b6, b7] = b7 ++ b6 ++ b5 ++ b4 ++ b3 ++ b2 ++ b1 ++ b0 := by
  have hlast : pack 8 [b7] = b7 := by simp [pack, packNat]
  rw [pack_cons 56, pack_cons 48, pack_cons 40, pack_cons 32, pack_cons 24, pack_cons 16, pack_cons 8, hlast]

/-- On the host's turn the machine's step is the first line of the host's program, taken off it. -/
theorem step_eq_hostLine {s : State} {op : HostOp} {rest : List HostOp} (hn : nextTurn s = .host)
    (hp : s.hostProgram = op :: rest) : step s = hostLine op { popTurn s with hostProgram := rest } := by
  simp only [step, hn, takeTurn, hostTurn, popTurn_hostProgram, hp]

section
variable {s : State} {addr : Nat}

theorem hostLine_windowRead_refused {width : Nat} {dest : Option Nat} (hf : s.fault = none)
    (h : width ≠ 8 ∨ addr % 8 ≠ 0 ∨ addr < s.config.regBase ∨ s.config.regBase + 256 ≤ addr) :
    hostLine (.windowRead addr width dest) s = .refused (.badRegisterAccess addr width) := by
  simp only [hostLine, decodeWindow_eq_error h, hostEnabled_of_none hf]

theorem hostLine_windowWrite_refused {data : List Byte} (hf : s.fault = none)
    (h : data.length ≠ 8 ∨ addr % 8 ≠ 0 ∨ addr < s.config.regBase ∨ s.config.regBase + 256 ≤ addr) :
    hostLine (.windowWrite addr data) s = .refused (.badRegisterAccess addr data.length) := by
  simp only [hostLine, decodeWindow_eq_error h, hostEnabled_of_none hf]

end

section
variable {s : State} {idx : BitVec 5} (hb : s.config.regBase % 256 = 0)
include hb

theorem hostLine_windowRead {dest : Option Nat} :
    hostLine (.windowRead (s.config.regBase + 8 * idx.toNat) 8 dest) s =
      andThen (exec (decodeRead idx) s) (bindRead dest) := by
  simp only [hostLine, decodeWindow_eq_ok hb, hostAccess_read]

theorem hostLine_windowWrite {data : List Byte} (hl : data.length = 8) :
    hostLine (.windowWrite (s.config.regBase + 8 * idx.toNat) data) s =
      exec (decodeWrite idx (pack 64 data)) s := by
  simp only [hostLine, hl, decodeWindow_eq_ok hb, hostAccess_write]

end

/-- Settles O5: the host's line is a window access, which `decodeWindow` refuses or takes to its register index. -/
theorem onlyAlignedWideWindowAccesses : Obligations.OnlyAlignedWideWindowAccesses := by
  intro s rest hf hb hn
  refine ⟨fun addr width dest hp h => ?_, fun addr data hp h => ?_, fun idx dest hp => ?_,
    fun idx b0 b1 b2 b3 b4 b5 b6 b7 hp => ?_⟩
  · rw [step_eq_hostLine hn hp]
    exact hostLine_windowRead_refused hf h
  · rw [step_eq_hostLine hn hp]
    exact hostLine_windowWrite_refused hf h
  · rw [step_eq_hostLine hn hp]
    exact hostLine_windowRead (s := { popTurn s with hostProgram := rest }) hb
  · rw [step_eq_hostLine hn hp, ← pack_eight]
    exact hostLine_windowWrite (s := { popTurn s with hostProgram := rest }) hb rfl

/-! ## The reserved PHASE code -/

/-- Settles O26: the step of the reserved code is enabled in its phase and does nothing but refuse. -/
theorem reservedPhaseIsRefused : Obligations.ReservedPhaseIsRefused := by
  intro s hf hp
  exact ⟨rfl, engineEnabled_of hf hp _⟩

end Sys2Proof.Machine
end

section
/-! The batch multiplexer, exactly: `nextPhase_cases` gives each answer its range, and BULK32 goes first where it is
configured. -/

namespace Sys2Proof.Machine

theorem nextPhase_eq_bulk32_iff (c : Config) (r : Nat) :
    nextPhase c r = .bulk32 ↔ c.maxBatch = .b32 ∧ 32 ≤ r := by
  refine ⟨fun h => ?_, fun h => if_pos h⟩
  unfold nextPhase at h
  split_ifs at h with h32
  exact h32

theorem nextPhase_ne_bulk32_iff (c : Config) (r : Nat) :
    nextPhase c r ≠ .bulk32 ↔ c.maxBatch = .b16 ∨ r < 32 := by
  rw [Ne, nextPhase_eq_bulk32_iff, not_and_or, not_le]
  cases c.maxBatch <;> simp

/-- Settles O19: the range of each of the multiplexer's answers excludes the other four, and BULK16 is its answer only
where BULK32 is not. -/
theorem nextPhaseIsTheLargestBatch : Obligations.NextPhaseIsTheLargestBatch := by
  intro c r
  refine ⟨nextPhase_eq_bulk32_iff c r, ?_⟩
  rw [← nextPhase_ne_bulk32_iff]
  rcases nextPhase_cases c r with ⟨h, hr, -⟩ | ⟨h, hr⟩ | ⟨h, hl, hu⟩ | ⟨h, hl, hu⟩ | ⟨h, hr⟩
  all_goals
    simp only [h, ne_eq, reduceCtorEq, not_true, not_false_iff, true_iff, false_iff, and_true, and_false, true_and]
    omega

end Sys2Proof.Machine
end

section
/-! Register accesses while FAULT is empty: the exact next state of a read, of an ignored write and of an argument write
(44_entry_and_host.md section 2), the descriptors of the reserved rows (30_encoding.md R69) and the fields of CONFIG
(10_state.md R30). -/

namespace Sys2Proof.Machine

/-! ## The meanings while FAULT is empty -/

theorem returnData_of_none {s : State} (hf : s.fault = none) (v : Word) :
    returnData s v = .next { s with rdata := v } :=
  hostEnabled_of_none hf _

theorem ignoreWrite_of_none {s : State} (hf : s.fault = none) : ignoreWrite s = .next s :=
  hostEnabled_of_none hf _

/-- A write that is taken while idle and ignored while busy (44_entry_and_host.md R145, R147, R149). -/
theorem idleWrite_of_none {s : State} (hf : s.fault = none) (u : State) :
    hostEnabled s (.next (if busy s then s else u)) = .next (if s.phase = .idle then u else s) := by
  rw [hostEnabled_of_none hf]
  by_cases hp : s.phase = .idle <;> simp [busy, hp]

/-! ## The reserved descriptors -/

/-- Bit W of a descriptor, by its value (30_encoding.md R60). -/
theorem descWrite_eq (desc : BitVec 6) : descWrite desc = decide (32 ≤ desc.toNat) := by
  revert desc
  decide

@[simp] theorem descIdx_toNat (desc : BitVec 6) : (descIdx desc).toNat = desc.toNat % 32 := by
  simp [descIdx]

theorem decodeRead_reserved {idx : BitVec 5} (h : 8 ≤ idx.toNat) :
    decodeRead idx = .rdRsvd8 idx ∨ decodeRead idx = .rdRsvd16 idx := by
  unfold decodeRead
  split
  case h_9 => split_ifs <;> simp
  all_goals omega

theorem decodeWrite_reserved {idx : BitVec 5} (h : 8 ≤ idx.toNat) (w : Word) :
    decodeWrite idx w = .wrRsvd8 idx w ∨ decodeWrite idx w = .wrRsvd16 idx w := by
  unfold decodeWrite
  split
  case h_9 => split_ifs <;> simp
  all_goals omega

theorem decodeHost_reservedRead {desc : BitVec 6} (hl : 0x08 ≤ desc.toNat) (hu : desc.toNat ≤ 0x1F) (w : Word) :
    decodeHost desc w = .rdRsvd8 (descIdx desc) ∨ decodeHost desc w = .rdRsvd16 (descIdx desc) := by
  have hw : descWrite desc = false := by rw [descWrite_eq]; exact decide_eq_false (by omega)
  have hi : 8 ≤ (descIdx desc).toNat := by rw [descIdx_toNat]; omega
  rw [decodeHost, hw]
  exact decodeRead_reserved hi

theorem decodeHost_reservedWrite {desc : BitVec 6} (hl : 0x28 ≤ desc.toNat) (w : Word) :
    decodeHost desc w = .wrRsvd8 (descIdx desc) w ∨ decodeHost desc w = .wrRsvd16 (descIdx desc) w := by
  have hw : descWrite desc = true := by rw [descWrite_eq]; exact decide_eq_true (by omega)
  have hi : 8 ≤ (descIdx desc).toNat := by rw [descIdx_toNat]; omega
  rw [decodeHost, hw]
  exact decodeWrite_reserved hi w

/-! ## The fields of the CONFIG word -/

section
variable (c : Config)

theorem configWord_maxBatch : (configWord c).extractLsb' 0 8 = maxBatchField c :=
  BitVec.extractLsb'_append_eq_right

theorem configWord_tableMode : (configWord c).getLsbD 8 = decide (c.tableMode = .synth) := by
  have hbit : (configWord c).getLsbD 8 = (tableModeField c).getLsbD 0 := by
    rw [configWord, BitVec.getLsbD_append, BitVec.getLsbD_append]
    rfl
  rw [hbit, tableModeField]
  cases c.tableMode <;> rfl

theorem configWord_zeros_low : (configWord c).extractLsb' 9 7 = 0#7 := by
  rw [configWord, BitVec.extractLsb'_append_eq_of_le (by decide), BitVec.extractLsb'_append_eq_of_le (by decide)]
  exact BitVec.extractLsb'_append_eq_right

theorem configWord_addrW : (configWord c).extractLsb' 16 8 = addrWField c := by
  rw [configWord, BitVec.extractLsb'_append_eq_of_le (by decide), BitVec.extractLsb'_append_eq_of_le (by decide),
    BitVec.extractLsb'_append_eq_of_le (by decide)]
  exact BitVec.extractLsb'_append_eq_right

theorem configWord_zeros_high : (configWord c).extractLsb' 24 40 = 0#40 := by
  rw [configWord, BitVec.extractLsb'_append_eq_of_le (by decide), BitVec.extractLsb'_append_eq_of_le (by decide),
    BitVec.extractLsb'_append_eq_of_le (by decide)]
  exact BitVec.extractLsb'_append_eq_left

end

/-! ## The reads -/

/-- Settles O10: RD_CTRL is a read that returns 0. -/
theorem rdCtrlReturnsZero : Obligations.RdCtrlReturnsZero :=
  ⟨rfl, fun _ hf => returnData_of_none hf 0⟩

/-- Settles O12: each of the three reads returns its register. -/
theorem rdArgumentsReturnTheRegisters : Obligations.RdArgumentsReturnTheRegisters :=
  ⟨rfl, rfl, rfl, fun s hf =>
    ⟨returnData_of_none hf s.src, returnData_of_none hf s.dst, returnData_of_none hf s.len⟩⟩

/-- Settles O14: the word RD_CONFIG returns is the CONFIG word, taken apart field by field. -/
theorem rdConfigReturnsTheBuild : Obligations.RdConfigReturnsTheBuild :=
  ⟨rfl, fun s hf => ⟨configWord s.config, returnData_of_none hf _, configWord_maxBatch _, configWord_tableMode _,
    configWord_zeros_low _, configWord_addrW _, configWord_zeros_high _⟩⟩

/-- Settles O15: the descriptors below bit W with an index of 8 or more reach a reserved row, and both rows are reads
that return 0. -/
theorem rdReservedReturnsZero : Obligations.RdReservedReturnsZero :=
  ⟨fun _ hl hu => decodeHost_reservedRead hl hu 0,
    fun _ _ hf => ⟨returnData_of_none hf 0, returnData_of_none hf 0⟩⟩

/-! ## The argument writes -/

/-- Settles O17: the operand form `argOperand` is the value the rules state, and the three writes take it while idle. -/
theorem argumentWritesOnlyWhileIdle : Obligations.ArgumentWritesOnlyWhileIdle := by
  intro s w v hf hv
  have hv : argOperand s.config w = v := by
    cases ha : s.config.addrW with
    | w32 => rw [hv, ha, argOperand_w32 ha]
    | w64 => rw [hv, ha, argOperand_w64 ha]
  subst hv
  exact ⟨rfl, rfl, rfl, idleWrite_of_none hf _, idleWrite_of_none hf _, idleWrite_of_none hf _⟩

end Sys2Proof.Machine
end

section
/-! What an operation that answers a next state leaves alone, whichever it is: a host access by `hostExec_cases`, an
engine step by `engineTurn_cases`. And FINISH, with its exact next state (44_entry_and_host.md R132). -/

namespace Sys2Proof.Machine

/-! ## START -/

@[simp] theorem start_config (s : State) : (start s).config = s.config := by
  rcases start_cases s with ⟨r, -, h⟩ | ⟨-, h⟩ <;> simp [h]

@[simp] theorem start_srcEnd (s : State) : (start s).srcEnd = s.srcEnd := by
  rcases start_cases s with ⟨r, -, h⟩ | ⟨-, h⟩ <;> simp [h]

@[simp] theorem start_dstEnd (s : State) : (start s).dstEnd = s.dstEnd := by
  rcases start_cases s with ⟨r, -, h⟩ | ⟨-, h⟩ <;> simp [h]

/-- A write of CTRL without START's bit changes nothing (44_entry_and_host.md R141). -/
theorem exec_wrCtrl_of_noStrobe {s t : State} {w : Word} (hw : w.getLsbD 0 = false)
    (h : exec (.wrCtrl w) s = .next t) : t = s := by
  obtain ⟨-, hk⟩ := hostEnabled_next (k := .next (if startStrobe w && !busy s then start s else s)) h
  cases hk
  exact if_neg (by rw [startStrobe, hw]; exact Bool.false_ne_true)

/-! ## Host accesses -/

section
variable {i : Instr} {s t : State} (hi : isHostAccess i = true) (h : exec i s = .next t)
include hi h

theorem hostExec_config : t.config = s.config := by
  obtain ⟨-, rfl | ⟨v, rfl⟩ | ⟨-, w, rfl | rfl | rfl⟩ | ⟨-, -, rfl⟩⟩ := hostExec_cases hi h <;> simp

theorem hostExec_ends : t.srcEnd = s.srcEnd ∧ t.dstEnd = s.dstEnd := by
  obtain ⟨-, rfl | ⟨v, rfl⟩ | ⟨-, w, rfl | rfl | rfl⟩ | ⟨-, -, rfl⟩⟩ := hostExec_cases hi h <;> simp

/-- DONE is not write-one-to-clear: an access that clears it is a START (44_entry_and_host.md R143). -/
theorem hostExec_clears_done (hs : s.done = true) (ht : t.done = false) :
    ∃ w, i = .wrCtrl w ∧ w.getLsbD 0 = true ∧ s.phase = .idle := by
  have hne : t ≠ s := by rintro rfl; simp [hs] at ht
  obtain ⟨-, rfl | ⟨v, rfl⟩ | ⟨-, w, rfl | rfl | rfl⟩ | ⟨hp, ⟨w, rfl⟩, -⟩⟩ := hostExec_cases hi h
  case inr.inr.inr =>
    refine ⟨w, rfl, ?_, hp⟩
    by_contra hw
    exact hne (exec_wrCtrl_of_noStrobe (by simpa using hw) h)
  all_goals simp [hs] at ht

end

/-! ## Engine steps -/

/-- An engine step that answers a next state is the one PHASE selects (30_encoding.md R66). -/
theorem eq_engineInstr_of_next {i : Instr} {s t : State} (hi : isHostAccess i = false)
    (h : exec i s = .next t) : i = engineInstr s := by
  have hsel : ∀ (p : Phase) (k : Host.Outcome State Fault Refusal), engineEnabled p s k = .next t →
      decodePhase p.code = engineInstr s := by
    intro p k hk
    obtain ⟨-, rfl, -⟩ := engineEnabled_next hk
    rfl
  cases i with
  | idle => exact hsel .idle _ h
  | fast1 => exact hsel .fast1 _ h
  | bulk32 => exact hsel .bulk32 _ h
  | bulk16 => exact hsel .bulk16 _ h
  | bulk8 => exact hsel .bulk8 _ h
  | rem => exact hsel .rem _ h
  | finish => exact hsel .finish _ h
  | rsvd7 => exact hsel .rsvd7 _ h
  | _ => cases hi

section
variable {s t : State} (h : engineTurn s = .next t)
include h

theorem engineTurn_config : t.config = s.config := by
  obtain ⟨-, ⟨rfl, -⟩ | ⟨-, -, rfl⟩ | ⟨b, -, -, -, rfl⟩ | ⟨-, -, -, -, rfl⟩ | ⟨-, -, rfl⟩⟩ := engineTurn_cases h
  all_goals rfl

/-- Only FINISH writes the end cursors (10_state.md R28, R29). -/
theorem engineTurn_ends (hp : s.phase ≠ .finish) : t.srcEnd = s.srcEnd ∧ t.dstEnd = s.dstEnd := by
  obtain ⟨-, ⟨rfl, -⟩ | ⟨-, -, rfl⟩ | ⟨b, -, -, -, rfl⟩ | ⟨-, -, -, -, rfl⟩ | ⟨hfin, -, -⟩⟩ := engineTurn_cases h
  case inr.inr.inr.inr => exact absurd hfin hp
  all_goals exact ⟨rfl, rfl⟩

/-- No engine step clears DONE: FINISH sets it, and the others leave it alone (10_state.md R24). -/
theorem engineTurn_done (hs : s.done = true) : t.done = true := by
  obtain ⟨-, ⟨rfl, -⟩ | ⟨-, -, rfl⟩ | ⟨b, -, -, -, rfl⟩ | ⟨-, -, -, -, rfl⟩ | ⟨-, -, rfl⟩⟩ := engineTurn_cases h
  case inr.inr.inr.inr => rfl
  all_goals exact hs

end

/-! ## Every operation -/

section
variable {i : Instr} {s t : State} (h : exec i s = .next t)
include h

theorem exec_config : t.config = s.config := by
  cases hi : isHostAccess i with
  | true => exact hostExec_config hi h
  | false =>
    obtain rfl := eq_engineInstr_of_next hi h
    exact engineTurn_config h

theorem exec_ends (hfin : i ≠ .finish) : t.srcEnd = s.srcEnd ∧ t.dstEnd = s.dstEnd := by
  cases hi : isHostAccess i with
  | true => exact hostExec_ends hi h
  | false =>
    obtain rfl := eq_engineInstr_of_next hi h
    refine engineTurn_ends h fun hp => hfin ?_
    rw [engineInstr_eq, hp]

theorem exec_clears_done (hs : s.done = true) (ht : t.done = false) :
    ∃ w, i = .wrCtrl w ∧ w.getLsbD 0 = true ∧ s.phase = .idle := by
  cases hi : isHostAccess i with
  | true => exact hostExec_clears_done hi h hs ht
  | false =>
    obtain rfl := eq_engineInstr_of_next hi h
    simp [engineTurn_done h hs] at ht

end

/-- Settles O13: the two reads return their registers, which are 0 after reset and which only FINISH writes. -/
theorem rdEndCursorsReturnTheRegisters : Obligations.RdEndCursorsReturnTheRegisters :=
  ⟨rfl, rfl, fun s hf => ⟨returnData_of_none hf s.srcEnd, returnData_of_none hf s.dstEnd⟩, fun _ => ⟨rfl, rfl⟩,
    fun _ _ _ h hfin => exec_ends h hfin⟩

/-- Settles O16: the writes of the read-only and reserved rows are ignored; no operation changes the build, and only a
START clears DONE. -/
theorem readOnlyAndReservedWritesAreIgnored : Obligations.ReadOnlyAndReservedWritesAreIgnored := by
  refine ⟨fun w => ⟨rfl, rfl, rfl, rfl⟩, fun _ w hl => decodeHost_reservedWrite hl w, fun s w idx hf => ?_,
    fun i s t h => ⟨exec_config h, exec_clears_done h⟩⟩
  have hign : ignoreWrite s = .next s := ignoreWrite_of_none hf
  exact ⟨hign, hign, hign, hign, hign, hign⟩

/-! ## FINISH -/

/-- Cursors of ADDR_W bits are reported as they stand. -/
theorem RegistersFit.finishJob_eq {s : State} (h : RegistersFit s) :
    finishJob s = { s with
      srcEnd := s.rs, dstEnd := s.wd, done := true, phase := .idle, scalar := Config.freeScalar s.draws,
      chars := Config.freeChars s.draws, draws := s.draws + 1 } := by
  rw [finishJob, truncAddr_of_lt h.rs, truncAddr_of_lt h.wd]

/-- Settles O24: the enabled FINISH step makes `finishJob`, whose end cursors are RS and WD in full. -/
theorem finishReportsTheEndCursors : Obligations.FinishReportsTheEndCursors := by
  intro s hf hp hr hfit
  have hexec : exec .finish s = .next (finishJob s) :=
    (engineEnabled_of hf hp _).trans (if_pos (decide_eq_true hr))
  exact ⟨rfl, _, _, _, hexec.trans (congrArg _ hfit.finishJob_eq)⟩

end Sys2Proof.Machine
end

section
/-! The two encodings undo each other (30_encoding.md R60, R66), and a code value matches the row of the operation it
decodes to and no other (R69). -/

namespace Sys2Proof

/-- The descriptor is its two fields (30_encoding.md R60). -/
theorem mkDesc_descWrite_descIdx (desc : BitVec 6) : mkDesc (descWrite desc) (descIdx desc) = desc := by
  revert desc
  decide

theorem eq_ofNat_of_toNat_eq {w k : Nat} {x : BitVec w} (h : x.toNat = k) : x = BitVec.ofNat w k := by
  subst h
  simp

/-! ## What the decoder reads -/

theorem decodeHost_mkDesc_read (idx : BitVec 5) (w : Word) : decodeHost (mkDesc false idx) w = decodeRead idx := by
  simp [decodeHost, Machine.descWrite_mkDesc, Machine.descIdx_mkDesc]

theorem decodeHost_mkDesc_write (idx : BitVec 5) (w : Word) : decodeHost (mkDesc true idx) w = decodeWrite idx w := by
  simp [decodeHost, Machine.descWrite_mkDesc, Machine.descIdx_mkDesc]

/-- Above index 7 a read selects the reserved row of its range (30_encoding.md R69). -/
theorem decodeRead_of_ge {idx : BitVec 5} (h : 8 ≤ idx.toNat) :
    decodeRead idx = if idx.toNat < 16 then .rdRsvd8 idx else .rdRsvd16 idx := by
  unfold decodeRead
  split
  case h_9 => rfl
  all_goals omega

/-- Above index 7 a write selects the reserved row of its range (30_encoding.md R69). -/
theorem decodeWrite_of_ge {idx : BitVec 5} (h : 8 ≤ idx.toNat) (w : Word) :
    decodeWrite idx w = if idx.toNat < 16 then .wrRsvd8 idx w else .wrRsvd16 idx w := by
  unfold decodeWrite
  split
  case h_9 => rfl
  all_goals omega

theorem decodeRead_wellFormed (idx : BitVec 5) : (decodeRead idx).wellFormed = true := by
  revert idx
  decide

theorem decodeWrite_wellFormed (idx : BitVec 5) (w : Word) : (decodeWrite idx w).wellFormed = true := by
  by_cases h : 8 ≤ idx.toNat
  · rw [decodeWrite_of_ge h]
    split_ifs <;> simp [Instr.wellFormed] <;> omega
  · interval_cases hk : idx.toNat
    all_goals
      rw [eq_ofNat_of_toNat_eq hk]
      rfl

theorem decodeHost_wellFormed (desc : BitVec 6) (w : Word) : (decodeHost desc w).wellFormed = true := by
  unfold decodeHost
  split
  · exact decodeWrite_wellFormed _ w
  · exact decodeRead_wellFormed _

theorem decodePhase_wellFormed (code : BitVec 3) : (decodePhase code).wellFormed = true := by
  revert code
  decide

theorem decode_wellFormed : ∀ c : Code, (decode c).wellFormed = true
  | .host desc w => decodeHost_wellFormed desc w
  | .phase code => decodePhase_wellFormed code

/-! ## Decode of encode -/

theorem decode_encode_rdRsvd {idx : BitVec 5} :
    ((Instr.rdRsvd8 idx).wellFormed = true → decode (encode (.rdRsvd8 idx)) = .rdRsvd8 idx) ∧
      ((Instr.rdRsvd16 idx).wellFormed = true → decode (encode (.rdRsvd16 idx)) = .rdRsvd16 idx) := by
  have hdec := decodeHost_mkDesc_read idx 0
  constructor
  · intro h
    obtain ⟨hl, hu⟩ := of_decide_eq_true h
    exact (hdec.trans (decodeRead_of_ge hl)).trans (if_pos (by omega))
  · intro h
    have hl := of_decide_eq_true h
    exact (hdec.trans (decodeRead_of_ge (by omega))).trans (if_neg (by omega))

theorem decode_encode_wrRsvd {idx : BitVec 5} {w : Word} :
    ((Instr.wrRsvd8 idx w).wellFormed = true → decode (encode (.wrRsvd8 idx w)) = .wrRsvd8 idx w) ∧
      ((Instr.wrRsvd16 idx w).wellFormed = true → decode (encode (.wrRsvd16 idx w)) = .wrRsvd16 idx w) := by
  have hdec := decodeHost_mkDesc_write idx w
  constructor
  · intro h
    obtain ⟨hl, hu⟩ := of_decide_eq_true h
    exact (hdec.trans (decodeWrite_of_ge hl w)).trans (if_pos (by omega))
  · intro h
    have hl := of_decide_eq_true h
    exact (hdec.trans (decodeWrite_of_ge (by omega) w)).trans (if_neg (by omega))

/-- Settles O1: a row with one code decodes to itself by computation; a reserved row's index tells its two rows
apart. -/
theorem decodeOfEncodeIsIdentity : Obligations.DecodeOfEncodeIsIdentity := by
  intro i hi
  cases i with
  | rdRsvd8 idx => exact decode_encode_rdRsvd.1 hi
  | rdRsvd16 idx => exact decode_encode_rdRsvd.2 hi
  | wrRsvd8 idx w => exact decode_encode_wrRsvd.1 hi
  | wrRsvd16 idx w => exact decode_encode_wrRsvd.2 hi
  | _ => rfl

/-! ## Encode of decode -/

theorem encode_decodeRead (idx : BitVec 5) : encode (decodeRead idx) = .host (mkDesc false idx) 0 := by
  revert idx
  decide

theorem encode_decodeWrite (idx : BitVec 5) (w : Word) : encode (decodeWrite idx w) = .host (mkDesc true idx) w := by
  unfold decodeWrite
  split
  case h_9 => split_ifs <;> rfl
  all_goals
    rename_i h
    rw [eq_ofNat_of_toNat_eq h]
    rfl

theorem encode_decodeHost (desc : BitVec 6) (w : Word) :
    encode (decodeHost desc w) = .host desc (if desc.getLsbD 5 then w else 0) := by
  have hdesc := mkDesc_descWrite_descIdx desc
  change _ = Code.host desc (if descWrite desc then w else 0)
  unfold decodeHost
  cases hw : descWrite desc with
  | true => rw [hw] at hdesc; exact (encode_decodeWrite _ w).trans (by rw [hdesc]; rfl)
  | false => rw [hw] at hdesc; exact (encode_decodeRead _).trans (by rw [hdesc]; rfl)

theorem encode_decodePhase (code : BitVec 3) : encode (decodePhase code) = .phase code := by
  revert code
  decide

/-- Settles O2: an access is encoded by its two descriptor fields, an engine step by its code. -/
theorem encodeOfDecodeIsIdentity : Obligations.EncodeOfDecodeIsIdentity
  | .host desc w => encode_decodeHost desc w
  | .phase code => encode_decodePhase code

/-! ## The rows of the opcode map -/

/-- Encoding what a code decodes to keeps its space and the value its row is matched on. -/
theorem encode_decode_key (c : Code) :
    (encode (decode c)).space = c.space ∧ (encode (decode c)).value = c.value := by
  rw [encodeOfDecodeIsIdentity c]
  cases c <;> exact ⟨rfl, rfl⟩

open Laws in
theorem encodesInItsRow (i : Instr) : EncodesInItsRow.Statement i := by
  cases i with
  | rdCtrl => exact EncodesInItsRow.rdCtrl
  | wrCtrl w => exact EncodesInItsRow.wrCtrl w
  | rdStatus => exact EncodesInItsRow.rdStatus
  | wrStatus w => exact EncodesInItsRow.wrStatus w
  | rdSrc => exact EncodesInItsRow.rdSrc
  | wrSrc w => exact EncodesInItsRow.wrSrc w
  | rdDst => exact EncodesInItsRow.rdDst
  | wrDst w => exact EncodesInItsRow.wrDst w
  | rdLen => exact EncodesInItsRow.rdLen
  | wrLen w => exact EncodesInItsRow.wrLen w
  | rdSrcEnd => exact EncodesInItsRow.rdSrcEnd
  | wrSrcEnd w => exact EncodesInItsRow.wrSrcEnd w
  | rdDstEnd => exact EncodesInItsRow.rdDstEnd
  | wrDstEnd w => exact EncodesInItsRow.wrDstEnd w
  | rdConfig => exact EncodesInItsRow.rdConfig
  | wrConfig w => exact EncodesInItsRow.wrConfig w
  | rdRsvd8 idx => exact EncodesInItsRow.rdRsvd8 idx
  | rdRsvd16 idx => exact EncodesInItsRow.rdRsvd16 idx
  | wrRsvd8 idx w => exact EncodesInItsRow.wrRsvd8 idx w
  | wrRsvd16 idx w => exact EncodesInItsRow.wrRsvd16 idx w
  | idle => exact EncodesInItsRow.idle
  | fast1 => exact EncodesInItsRow.fast1
  | bulk32 => exact EncodesInItsRow.bulk32
  | bulk16 => exact EncodesInItsRow.bulk16
  | bulk8 => exact EncodesInItsRow.bulk8
  | rem => exact EncodesInItsRow.rem
  | finish => exact EncodesInItsRow.finish
  | rsvd7 => exact EncodesInItsRow.rsvd7

/-- Two rows of one space that agree in the bits both of them look at are the same row. -/
theorem row_eq_of_agree : ∀ r ∈ hostRows ++ phaseRows, ∀ r' ∈ hostRows ++ phaseRows, r.space = r'.space →
    r.value &&& r'.mask = r'.value &&& r.mask → r = r' := by
  decide

/-- Rows that match one value agree in the bits both of them look at. -/
theorem Row.agree_of_accepts {r r' : Row} {w : Nat} (h : r.accepts w = true) (h' : r'.accepts w = true) :
    r.value &&& r'.mask = r'.value &&& r.mask := by
  simp only [Row.accepts, beq_iff_eq] at h h'
  rw [← h, ← h', Nat.and_assoc, Nat.and_assoc, Nat.and_comm r.mask]

/-- Settles O3: a code matches the row of what it decodes to, whose encoding it is, and rows that match one value are
the same. -/
theorem everyCodeMatchesOneRow : Obligations.EveryCodeMatchesOneRow := by
  intro c
  have hwf := decode_wellFormed c
  obtain ⟨hspace, hvalue⟩ := encode_decode_key c
  obtain ⟨hrow, hacc, hmem⟩ := encodesInItsRow (decode c) hwf
  rw [hvalue] at hacc
  have hrow : (rowOf (decode c)).space = c.space := hrow.symm.trans hspace
  refine ⟨hwf, hmem, hrow, fun r hr hs => ⟨fun ha => ?_, fun h => h ▸ hacc⟩⟩
  exact row_eq_of_agree r hr _ hmem (hs.trans hrow.symm) (Row.agree_of_accepts ha hacc)

/-- Settles O4: the decoder computes each of the words. -/
theorem tableWordsDecode : Obligations.TableWordsDecode := by
  unfold Obligations.TableWordsDecode
  decide

end Sys2Proof
end

section
/-! What a step keeps. A property that does not look at the host's side passes one step if it passes each of the host's
effects, the engine's turn and the reset: `step_cases`, packaged once for all the statements about every step. -/

namespace Sys2Proof.Machine

/-- The property does not look at the host's own fields nor at the order of turns. -/
def HostBlind (P : State → Prop) : Prop :=
  ∀ (s : State) (rd : Word) (hp : List HostOp) (tm : List (Nat × Word)) (tn : List Turn), P s →
    P { s with rdata := rd, hostProgram := hp, temps := tm, turns := tn }

theorem HostBlind.popTurn {P : State → Prop} (h : HostBlind P) {s : State} (hs : P s) : P (popTurn s) :=
  h s s.rdata s.hostProgram s.temps s.turns.tail hs

theorem HostBlind.sameBlock {P : State → Prop} (h : HostBlind P) {s t : State} (hst : SameBlock s t) (hs : P s) :
    P t := by
  rw [show t = withHostOf t s from hst]
  exact h s t.rdata t.hostProgram t.temps s.turns hs

/-- From `P` to `Q` in one step: through the host's effects, the engine's turn and the reset. -/
theorem step_establishes {P Q : State → Prop} (hP : HostBlind P) (hQ : HostBlind Q)
    (hhost : ∀ {s u : State}, HostEffect s u → P s → Q u)
    (hengine : ∀ {s u : State}, engineTurn s = .next u → P s → Q u)
    (hreset : ∀ {s : State}, P s → Q (resetBlock s))
    {s t : State} (h : step s = .next t) (hs : P s) : Q t := by
  have hpop : P (popTurn s) := hP.popTurn hs
  rcases step_cases h with ⟨-, u, hu, hut⟩ | ⟨-, ht⟩ | ht
  · exact hQ.sameBlock hut (hhost hu hpop)
  · exact hengine ht hpop
  · exact hQ.sameBlock ht (hreset hpop)

/-! ## The engine's turn in a sound state -/

/-- `t` is `s` after a data step of `n` bytes, as far as the sequencer sees it: the cursors and REM have moved, PHASE is
the multiplexer's choice for what is left, and no register of the job has changed (10_state.md R32, 41_bulk.md R97). -/
structure MovesCursors (s t : State) (n : Nat) : Prop where
  busy : s.phase ≠ .idle
  le : n ≤ s.rem.toNat
  rs : t.rs.toNat = (s.rs.toNat + n) % 2 ^ addrBits s.config
  wd : t.wd.toNat = (s.wd.toNat + 2 * n) % 2 ^ addrBits s.config
  rem : t.rem.toNat = s.rem.toNat - n
  phase : t.phase = nextPhase s.config (s.rem.toNat - n)
  frame : t = { s with
    mem := t.mem, rs := t.rs, wd := t.wd, rem := t.rem, phase := t.phase, history := t.history,
    scalar := t.scalar, chars := t.chars }

section
variable {s t : State} {n : Nat} (h : MovesCursors s t n)
include h

theorem MovesCursors.config : t.config = s.config := (congrArg State.config h.frame).trans rfl
theorem MovesCursors.src : t.src = s.src := (congrArg State.src h.frame).trans rfl
theorem MovesCursors.dst : t.dst = s.dst := (congrArg State.dst h.frame).trans rfl
theorem MovesCursors.len : t.len = s.len := (congrArg State.len h.frame).trans rfl
theorem MovesCursors.done : t.done = s.done := (congrArg State.done h.frame).trans rfl
theorem MovesCursors.job : t.job = s.job := (congrArg State.job h.frame).trans rfl

end

theorem movesCursors_afterBulk {s : State} {b : Nat}
    (hp : s.phase = .bulk32 ∧ b = 32 ∨ s.phase = .bulk16 ∧ b = 16 ∨ s.phase = .bulk8 ∧ b = 8)
    (hb : b ≤ s.rem.toNat) : MovesCursors s (afterBulk b s) b where
  busy := by rcases hp with ⟨hp, -⟩ | ⟨hp, -⟩ | ⟨hp, -⟩ <;> simp [hp]
  le := hb
  rs := by simp [afterBulk]
  wd := by simp [afterBulk]
  rem := by
    have hlt := s.rem.isLt
    have hb64 : (BitVec.ofNat 64 b).toNat = b := by rw [BitVec.toNat_ofNat, Nat.mod_eq_of_lt (by omega)]
    rw [afterBulk, dataStep_rem, BitVec.toNat_sub_of_le (by rw [BitVec.le_def, hb64]; exact hb), hb64]
  phase := rfl
  frame := rfl

theorem movesCursors_afterRem {s : State} (hp : s.phase ≠ .idle) : MovesCursors s (afterRem s) s.rem.toNat where
  busy := hp
  le := le_rfl
  rs := by simp [afterRem]
  wd := by simp [afterRem]
  rem := by simp [afterRem]
  phase := by simp [afterRem]
  frame := rfl

theorem movesCursors_afterFast1 {s : State} (hp : s.phase ≠ .idle) (h1 : s.rem.toNat = 1) :
    MovesCursors s (afterFast1 s) 1 where
  busy := hp
  le := h1.ge
  rs := by simp [afterFast1]
  wd := by simp [afterFast1]
  rem := by simp [afterFast1, h1]
  phase := by simp [afterFast1, h1]
  frame := rfl

/-- What the engine's turn does where FAST1 has its one byte: nothing, a data step (which encodes its bytes where memory
is canonical), or FINISH. -/
theorem engineTurn_sound_cases {s t : State} (hfast : s.phase = .fast1 → s.rem.toNat = 1)
    (h : engineTurn s = .next t) :
    t = s ∨ (∃ n, MovesCursors s t n ∧ (s.mem.wf = true → DataStepTo s t n)) ∨
      (s.phase = .finish ∧ s.rem.toNat = 0 ∧ t = finishJob s) := by
  obtain ⟨-, ⟨rfl, -⟩ | ⟨hp, -, rfl⟩ | ⟨b, hb, hle, -, rfl⟩ | ⟨hp, h1, h7, -, rfl⟩ | hfin⟩ := engineTurn_cases h
  · exact .inl rfl
  · exact .inr (.inl ⟨1, movesCursors_afterFast1 (by simp [hp]) (hfast hp),
      fun hm => dataStepTo_afterFast1 hm (hfast hp)⟩)
  · exact .inr (.inl ⟨b, movesCursors_afterBulk hb hle,
      fun hm => dataStepTo_afterBulk hm (by omega) (by omega) hle⟩)
  · exact .inr (.inl ⟨_, movesCursors_afterRem (by simp [hp]), fun hm => dataStepTo_afterRem hm h1 h7⟩)
  · exact .inr (.inr hfin)

end Sys2Proof.Machine
end

section
/-! The sequencer stays sound (10_state.md R24, R32; 41_bulk.md R98; 30_encoding.md R67). -/

namespace Sys2Proof.Machine

/-! ## What the multiplexer and the entry selector answer -/

theorem nextPhase_ne (c : Config) (r : Nat) :
    nextPhase c r ≠ .idle ∧ nextPhase c r ≠ .fast1 ∧ nextPhase c r ≠ .rsvd7 := by
  rcases nextPhase_cases c r with ⟨h, -⟩ | ⟨h, -⟩ | ⟨h, -⟩ | ⟨h, -⟩ | ⟨h, -⟩ <;> simp [h]

theorem entryPhase_eq (c : Config) (n : Nat) :
    entryPhase c n = nextPhase c n ∨ entryPhase c n = .fast1 ∧ n = 1 := by
  rcases entryPhase_cases c n with ⟨h, rfl⟩ | h | ⟨h, -⟩
  · exact .inl (by rw [h, nextPhase_zero])
  · exact .inr h
  · exact .inl h

/-- The multiplexer's choice for the bytes left meets its guard (41_bulk.md R98). -/
theorem phaseGuard_of_nextPhase {s : State} (h : s.phase = nextPhase s.config s.rem.toNat) :
    phaseGuard s s.phase = true := by
  rw [h]
  rcases nextPhase_cases s.config s.rem.toNat with ⟨hn, hr, hc⟩ | ⟨hn, hr⟩ | ⟨hn, hr, -⟩ | ⟨hn, hr⟩ | ⟨hn, hr⟩
  · simp [hn, phaseGuard, hr, hc]
  · simp [hn, phaseGuard, hr]
  · simp [hn, phaseGuard, hr]
  · simpa [hn, phaseGuard] using hr
  · simp [phaseGuard, hr]

/-! ## Sound states -/

theorem SequencerSound.of_idle {s : State} (h : s.phase = .idle) : SequencerSound s where
  done := fun _ => h
  notReserved := by simp [h]
  guard := by simp [h, phaseGuard]
  fast := by simp [h]
  job := fun hp => absurd h hp

/-- A busy state is sound when DONE is 0, PHASE is the multiplexer's choice (or FAST1 with its one byte), and the cursors
follow a job. -/
theorem SequencerSound.of_busy {s : State} {j : Job} (hd : s.done = false)
    (hp : s.phase = nextPhase s.config s.rem.toNat ∨ s.phase = .fast1 ∧ s.rem.toNat = 1)
    (hj : s.job = some j) (hc : CursorsFollowJob s j) : SequencerSound s where
  done := fun h => by simp [hd] at h
  notReserved := by
    rcases hp with hp | ⟨hp, -⟩
    · exact hp ▸ (nextPhase_ne _ _).2.2
    · simp [hp]
  guard := by
    rcases hp with hp | ⟨hp, -⟩
    · exact phaseGuard_of_nextPhase hp
    · simp [hp, phaseGuard]
  fast := fun hf => by
    rcases hp with hp | ⟨-, h1⟩
    · exact absurd (hp.symm.trans hf) (nextPhase_ne _ _).2.1
    · exact h1
  job := fun _ => ⟨j, hj, hc⟩

/-- A sound state looks only at the parameters, the registers and the job. -/
theorem SequencerSound.update {s : State} (h : SequencerSound s) (m : Memory) (f : Option UB) (rd : Word)
    (hp : List HostOp) (tm : List (Nat × Word)) (tn : List Turn) :
    SequencerSound { s with
      mem := m, fault := f, rdata := rd, hostProgram := hp, temps := tm, turns := tn } where
  done := h.done
  notReserved := h.notReserved
  guard := h.guard
  fast := h.fast
  job := fun hb =>
    have ⟨j, hj, hc⟩ := h.job hb
    ⟨j, hj, hc.src, hc.dst, hc.len, hc.noWrap, hc.noOverlap, hc.rem, hc.rs, hc.wd⟩

theorem hostBlind_sequencerSound : HostBlind SequencerSound :=
  fun s rd hp tm tn h => h.update s.mem s.fault rd hp tm tn

/-- DONE is 0 while busy (10_state.md R24). -/
theorem SequencerSound.done_eq_false {s : State} (h : SequencerSound s) (hp : s.phase ≠ .idle) : s.done = false := by
  cases hd : s.done with
  | false => rfl
  | true => exact absurd (h.done hd) hp

/-! ## The cursors -/

/-- At a START the cursors stand at the beginning of both buffers (44_entry_and_host.md R131). -/
theorem cursorsFollowJob_startJob {s : State} (hfit : RegistersFit s)
    (hpre : preconditionFailure s.config s.src s.dst s.len = none) :
    CursorsFollowJob (startJob s) { src := s.src, dst := s.dst, len := s.len, memAtStart := s.mem } where
  src := rfl
  dst := rfl
  len := rfl
  noWrap := (preconditionFailure_eq_none.mp hpre).1
  noOverlap := (preconditionFailure_eq_none.mp hpre).2
  rem := by simp [Nat.mod_eq_of_lt hfit.len]
  rs := by simp [Nat.mod_eq_of_lt hfit.len]
  wd := by simp [Nat.mod_eq_of_lt hfit.len]

/-- A data step of `n` bytes moves both cursors and REM together (10_state.md R32). -/
theorem CursorsFollowJob.next {s t : State} {j : Job} {n : Nat} (h : CursorsFollowJob s j)
    (hm : MovesCursors s t n) : CursorsFollowJob t j := by
  have hn := hm.le
  have hrem := h.rem
  constructor
  case src => rw [hm.src, h.src]
  case dst => rw [hm.dst, h.dst]
  case len => rw [hm.len, h.len]
  case noWrap => rw [hm.config, hm.src, hm.dst, hm.len, h.noWrap]
  case noOverlap => rw [hm.src, hm.dst, hm.len, h.noOverlap]
  case rem => rw [hm.rem, hm.len]; omega
  case rs =>
    rw [hm.rs, h.rs, hm.rem, hm.config, hm.src, hm.len, Nat.mod_add_mod]
    congr 1
    omega
  case wd =>
    rw [hm.wd, h.wd, hm.rem, hm.config, hm.dst, hm.len, Nat.mod_add_mod]
    congr 1
    omega

/-! ## Every step -/

theorem HostEffect.sequencerSound {s u : State} (hu : HostEffect s u) (hfit : RegistersFit s)
    (h : SequencerSound s) : SequencerSound u := by
  cases hu with
  | same => exact h
  | src w hp => exact .of_idle hp
  | dst w hp => exact .of_idle hp
  | len w hp => exact .of_idle hp
  | start hp =>
    rcases start_cases s with ⟨r, -, hs⟩ | ⟨hpre, hs⟩
    · rw [hs]
      exact .of_idle hp
    · rw [hs]
      refine .of_busy rfl ?_ rfl (cursorsFollowJob_startJob hfit hpre)
      simpa [Nat.mod_eq_of_lt hfit.len] using entryPhase_eq s.config s.len.toNat
  | race a k => exact h.update s.mem _ s.rdata s.hostProgram s.temps s.turns
  | memWrite a b => exact h.update _ s.fault s.rdata s.hostProgram s.temps s.turns

theorem MovesCursors.sequencerSound {s t : State} {n : Nat} (hm : MovesCursors s t n) (h : SequencerSound s) :
    SequencerSound t := by
  obtain ⟨j, hj, hc⟩ := h.job hm.busy
  refine .of_busy (hm.done.trans (h.done_eq_false hm.busy)) (.inl ?_) (hm.job.trans hj) (hc.next hm)
  rw [hm.phase, hm.rem, hm.config]

theorem engineTurn_sequencerSound {s t : State} (ht : engineTurn s = .next t) (h : SequencerSound s) :
    SequencerSound t := by
  rcases engineTurn_sound_cases h.fast ht with rfl | ⟨n, hm, -⟩ | ⟨-, -, rfl⟩
  · exact h
  · exact hm.sequencerSound h
  · exact .of_idle rfl

theorem hostBlind_registersFit : HostBlind RegistersFit :=
  fun _ _ _ _ _ h => ⟨h.src, h.dst, h.len, h.srcEnd, h.dstEnd, h.rs, h.wd, h.rem⟩

theorem HostBlind.and {P Q : State → Prop} (hP : HostBlind P) (hQ : HostBlind Q) :
    HostBlind fun s => P s ∧ Q s :=
  fun s rd hp tm tn h => ⟨hP s rd hp tm tn h.1, hQ s rd hp tm tn h.2⟩

/-- Settles O44: a START enters a sound busy state, a data step moves the cursors with REM, and every other change of
PHASE goes idle. -/
theorem stepKeepsSequencerSound : Obligations.StepKeepsSequencerSound := by
  intro s t hfit hsound h
  exact step_establishes (P := fun s => RegistersFit s ∧ SequencerSound s) (Q := SequencerSound)
    (hostBlind_registersFit.and hostBlind_sequencerSound) hostBlind_sequencerSound
    (fun hu hs => hu.sequencerSound hs.1 hs.2) (fun ht hs => engineTurn_sequencerSound ht hs.2)
    (fun _ => .of_idle rfl) h ⟨hfit, hsound⟩

end Sys2Proof.Machine
end

section
/-! The memory and the registers stay in their form (log 4; 10_state.md R31, R32), no step enters the reserved code
(30_encoding.md R67), and the parameters and HISTORY (00_scope.md R6, 20_memory.md R40). -/

namespace Sys2Proof.Machine

/-! ## Canonical memory -/

theorem hostBlind_memoryCanonical : HostBlind MemoryCanonical := fun _ _ _ _ _ h => h

theorem HostEffect.memoryCanonical {s u : State} (hu : HostEffect s u) (h : MemoryCanonical s) :
    MemoryCanonical u := by
  obtain ⟨hm, hj⟩ := h
  cases hu with
  | same => exact ⟨hm, hj⟩
  | src w hp => exact ⟨hm, hj⟩
  | dst w hp => exact ⟨hm, hj⟩
  | len w hp => exact ⟨hm, hj⟩
  | start hp =>
    rcases start_cases s with ⟨r, -, hs⟩ | ⟨-, hs⟩
    · rw [hs]
      exact ⟨hm, hj⟩
    · rw [hs]
      refine ⟨hm, fun j hjob => ?_⟩
      cases hjob
      exact hm
  | race a k => exact ⟨hm, hj⟩
  | memWrite a b => exact ⟨Memory.wf_write hm a b, hj⟩

theorem engineTurn_memoryCanonical {s t : State} (ht : engineTurn s = .next t) (h : MemoryCanonical s) :
    MemoryCanonical t := by
  obtain ⟨hm, hj⟩ := h
  obtain ⟨-, ⟨rfl, -⟩ | ⟨-, -, rfl⟩ | ⟨b, -, -, -, rfl⟩ | ⟨-, -, -, -, rfl⟩ | ⟨-, -, rfl⟩⟩ := engineTurn_cases ht
  · exact ⟨hm, hj⟩
  · exact ⟨Memory.wf_store _ hm, hj⟩
  · exact ⟨Memory.wf_store _ hm, hj⟩
  · exact ⟨Memory.wf_store _ hm, hj⟩
  · exact ⟨hm, hj⟩

theorem resetBlock_memoryCanonical {s : State} (h : MemoryCanonical s) : MemoryCanonical (resetBlock s) :=
  ⟨resetMemory_wf h.1, fun _ hj => by cases hj⟩

/-- Settles O42: every store goes through `Memory.write`, and a START keeps the memory it finds. -/
theorem stepKeepsMemoryCanonical : Obligations.StepKeepsMemoryCanonical := by
  intro s t hs h
  exact step_establishes hostBlind_memoryCanonical hostBlind_memoryCanonical HostEffect.memoryCanonical
    engineTurn_memoryCanonical resetBlock_memoryCanonical h hs

/-! ## Registers of ADDR_W bits -/

theorem truncAddr_lt (c : Config) (v : Word) : (truncAddr c v).toNat < 2 ^ addrBits c := by
  rw [truncAddr_toNat]
  exact Nat.mod_lt _ (by positivity)

theorem advance_lt (c : Config) (a : Word) (k : Nat) : (advance c a k).toNat < 2 ^ addrBits c := by
  rw [advance_toNat]
  exact Nat.mod_lt _ (by positivity)

theorem zero_toNat_lt (c : Config) : (0 : Word).toNat < 2 ^ addrBits c := by
  simp

theorem HostEffect.registersFit {s u : State} (hu : HostEffect s u) (h : RegistersFit s) : RegistersFit u := by
  have hsame : RegistersFit s := h
  obtain ⟨hsrc, hdst, hlen, hse, hde, hrs, hwd, hrem⟩ := h
  cases hu with
  | same => exact hsame
  | src w hp => exact ⟨truncAddr_lt _ w, hdst, hlen, hse, hde, hrs, hwd, hrem⟩
  | dst w hp => exact ⟨hsrc, truncAddr_lt _ w, hlen, hse, hde, hrs, hwd, hrem⟩
  | len w hp => exact ⟨hsrc, hdst, truncAddr_lt _ w, hse, hde, hrs, hwd, hrem⟩
  | start hp =>
    rcases start_cases s with ⟨r, -, hs⟩ | ⟨-, hs⟩
    · rw [hs]
      exact ⟨hsrc, hdst, hlen, hse, hde, hrs, hwd, hrem⟩
    · rw [hs]
      exact ⟨hsrc, hdst, hlen, hse, hde, truncAddr_lt _ _, truncAddr_lt _ _, truncAddr_lt _ _⟩
  | race a k => exact ⟨hsrc, hdst, hlen, hse, hde, hrs, hwd, hrem⟩
  | memWrite a b => exact ⟨hsrc, hdst, hlen, hse, hde, hrs, hwd, hrem⟩

theorem engineTurn_registersFit {s t : State} (ht : engineTurn s = .next t) (h : RegistersFit s) :
    RegistersFit t := by
  have hsame : RegistersFit s := h
  obtain ⟨hsrc, hdst, hlen, hse, hde, hrs, hwd, hrem⟩ := h
  obtain ⟨-, ⟨rfl, -⟩ | ⟨-, -, rfl⟩ | ⟨b, hb, hle, -, rfl⟩ | ⟨-, -, -, -, rfl⟩ | ⟨-, -, rfl⟩⟩ := engineTurn_cases ht
  · exact hsame
  · exact ⟨hsrc, hdst, hlen, hse, hde, advance_lt _ _ _, advance_lt _ _ _, zero_toNat_lt _⟩
  · refine ⟨hsrc, hdst, hlen, hse, hde, advance_lt _ _ _, advance_lt _ _ _, ?_⟩
    rw [(movesCursors_afterBulk hb hle).rem]
    exact lt_of_le_of_lt (Nat.sub_le _ _) hrem
  · exact ⟨hsrc, hdst, hlen, hse, hde, advance_lt _ _ _, advance_lt _ _ _, zero_toNat_lt _⟩
  · exact ⟨hsrc, hdst, hlen, truncAddr_lt _ _, truncAddr_lt _ _, hrs, hwd, hrem⟩

theorem resetBlock_registersFit (s : State) : RegistersFit (resetBlock s) := by
  constructor <;> exact zero_toNat_lt s.config

/-- Settles O43: every value that enters an address or count register is truncated to ADDR_W bits, 0, or less than the
one before. -/
theorem stepKeepsRegistersFit : Obligations.StepKeepsRegistersFit := by
  intro s t hs h
  exact step_establishes hostBlind_registersFit hostBlind_registersFit HostEffect.registersFit
    engineTurn_registersFit (fun _ => resetBlock_registersFit _) h hs

/-- Settles O46: the reset state is idle, holds zeros, and lists no memory. -/
theorem resetMeetsTheInvariants : Obligations.ResetMeetsTheInvariants := by
  intro c
  refine ⟨⟨rfl, fun _ hj => by cases hj⟩, ?_, .of_idle rfl, fun hp => absurd rfl hp⟩
  constructor <;> exact zero_toNat_lt c

/-! ## The reserved code -/

theorem entryPhase_ne_rsvd7 (c : Config) (n : Nat) : entryPhase c n ≠ .rsvd7 := by
  rcases entryPhase_eq c n with h | ⟨h, -⟩
  · rw [h]
    exact (nextPhase_ne c n).2.2
  · simp [h]

theorem HostEffect.phase_ne_rsvd7 {s u : State} (hu : HostEffect s u) (h : s.phase ≠ .rsvd7) :
    u.phase ≠ .rsvd7 := by
  cases hu with
  | start hp =>
    rcases start_cases s with ⟨r, -, hs⟩ | ⟨-, hs⟩
    · rw [hs]
      exact h
    · rw [hs]
      exact entryPhase_ne_rsvd7 _ _
  | _ => exact h

theorem engineTurn_phase_ne_rsvd7 {s t : State} (ht : engineTurn s = .next t) (h : s.phase ≠ .rsvd7) :
    t.phase ≠ .rsvd7 := by
  obtain ⟨-, ⟨rfl, -⟩ | ⟨-, -, rfl⟩ | ⟨b, -, -, -, rfl⟩ | ⟨-, -, -, -, rfl⟩ | ⟨-, -, rfl⟩⟩ := engineTurn_cases ht
  · exact h
  · exact Phase.noConfusion
  · exact (nextPhase_ne _ _).2.2
  · exact Phase.noConfusion
  · exact Phase.noConfusion

/-- Settles O27: PHASE is written by START, by a data step, by FINISH and by a reset, none of which writes code 7. -/
theorem stepNeverEntersTheReservedPhase : Obligations.StepNeverEntersTheReservedPhase := by
  intro s t hs h
  have hblind : HostBlind fun s => s.phase ≠ .rsvd7 := fun _ _ _ _ _ h => h
  exact step_establishes hblind hblind HostEffect.phase_ne_rsvd7 engineTurn_phase_ne_rsvd7
    (fun _ => Phase.noConfusion) h hs

/-! ## The parameters and HISTORY -/

@[simp] theorem start_mem (s : State) : (start s).mem = s.mem := by
  rcases start_cases s with ⟨r, -, h⟩ | ⟨-, h⟩ <;> simp [h]

@[simp] theorem start_history (s : State) : (start s).history = s.history := by
  rcases start_cases s with ⟨r, -, h⟩ | ⟨-, h⟩ <;> simp [h]

theorem HostEffect.config_history {s u : State} (hu : HostEffect s u) :
    u.config = s.config ∧ u.history = s.history := by
  cases hu with
  | start hp => exact ⟨start_config s, start_history s⟩
  | _ => exact ⟨rfl, rfl⟩

theorem engineTurn_history {s t : State} (ht : engineTurn s = .next t) : s.history <+: t.history := by
  obtain ⟨-, ⟨rfl, -⟩ | ⟨-, -, rfl⟩ | ⟨b, -, -, -, rfl⟩ | ⟨-, -, -, -, rfl⟩ | ⟨-, -, rfl⟩⟩ := engineTurn_cases ht
  · exact List.prefix_refl _
  · exact List.prefix_append _ _
  · exact List.prefix_append _ _
  · exact List.prefix_append _ _
  · exact List.prefix_refl _

/-- Settles O41: nothing writes the parameters, and only a data step writes HISTORY, at its end. -/
theorem configIsConstantAndHistoryGrows : Obligations.ConfigIsConstantAndHistoryGrows := by
  intro s t h
  refine step_establishes (P := fun u => u.config = s.config ∧ u.history = s.history)
    (Q := fun u => u.config = s.config ∧ s.history <+: u.history) (fun _ _ _ _ _ h => h) (fun _ _ _ _ _ h => h)
    ?_ ?_ ?_ h ⟨rfl, rfl⟩
  · rintro v u hu ⟨hc, hh⟩
    exact ⟨hu.config_history.1.trans hc, by rw [hu.config_history.2, hh]⟩
  · rintro v u hu ⟨hc, hh⟩
    exact ⟨(engineTurn_config hu).trans hc, hh ▸ engineTurn_history hu⟩
  · rintro v ⟨hc, hh⟩
    exact ⟨hc, hh ▸ List.prefix_refl _⟩

end Sys2Proof.Machine
end

section
/-! A data step of a running job, in the job's own addresses: it writes the hex text of its bytes to its part of the
destination and leaves the rest of memory alone, so that the job's data stay as the cursors say
(44_entry_and_host.md R130, 20_memory.md R43, R46). -/

namespace Sys2Proof.Machine

/-- `m'` is `m` with the hex text of the `n` bytes at `src` at `dst`, and nothing else changed (44_entry_and_host.md
R130 (a), 20_memory.md R43). -/
structure HexWritten (m m' : Memory) (src dst n : Nat) : Prop where
  chars : ∀ i < n, m'.read (dst + 2 * i) = digit ((m.read (src + i)).extractLsb' 4 4) ∧
    m'.read (dst + 2 * i + 1) = digit ((m.read (src + i)).extractLsb' 0 4)
  outside : ∀ a, (a < dst ∨ dst + 2 * n ≤ a) → m'.read a = m.read a

/-- A data step whose cursors address `src` and `dst` without a wrap writes the hex text of its bytes there. -/
theorem EncodesAtCursors.hexWritten {s t : State} {src dst n : Nat} (h : EncodesAtCursors s t n)
    (hr : ∀ i < n, portAddr s.config s.rs i = src + i) (hw : ∀ j < 2 * n, portAddr s.config s.wd j = dst + j) :
    HexWritten s.mem t.mem src dst n where
  chars := fun i hi => by
    have hc := h.chars i hi
    rwa [hr i hi, hw _ (by omega), hw _ (by omega)] at hc
  outside := fun a ha => h.elsewhere a fun j hj => by
    rw [hw j hj]
    omega

/-! ## The cursors of a running job -/

section
variable {s t : State} {j : Job} (h : CursorsFollowJob s j)
include h

/-- The read cursor's addresses are the source's, with no wrap before its end (41_bulk.md R99). -/
theorem CursorsFollowJob.readAddr {i : Nat} (hi : i < s.rem.toNat) :
    portAddr s.config s.rs i = s.src.toNat + (s.len.toNat - s.rem.toNat) + i := by
  have hrem := h.rem
  have hw := (noWrap_iff.mp h.noWrap).1
  rw [portAddr, h.rs, Nat.mod_add_mod, Nat.mod_eq_of_lt (by omega)]

/-- The write cursor's addresses are the destination's, with no wrap before its end (41_bulk.md R99). -/
theorem CursorsFollowJob.writeAddr {i : Nat} (hi : i < 2 * s.rem.toNat) :
    portAddr s.config s.wd i = s.dst.toNat + 2 * (s.len.toNat - s.rem.toNat) + i := by
  have hrem := h.rem
  have hw := (noWrap_iff.mp h.noWrap).2
  rw [portAddr, h.wd, Nat.mod_add_mod, Nat.mod_eq_of_lt (by omega)]

theorem CursorsFollowJob.hexWritten {n : Nat} (hd : DataStepTo s t n) :
    HexWritten s.mem t.mem (s.src.toNat + (s.len.toNat - s.rem.toNat))
      (s.dst.toNat + 2 * (s.len.toNat - s.rem.toNat)) n := by
  have hle := hd.le
  exact hd.encodes.hexWritten (fun i hi => h.readAddr (by omega)) fun i hi => h.writeAddr (by omega)

end

/-! ## The data of a running job -/

/-- A job's data look only at the bytes of its two buffers. -/
theorem JobDataAt.congr {m m' : Memory} {j : Job} {k : Nat} (h : JobDataAt m j k) (hk : k ≤ j.len.toNat)
    (hdst : ∀ i < 2 * j.len.toNat, m'.read (j.dst.toNat + i) = m.read (j.dst.toNat + i))
    (hsrc : ∀ i < j.len.toNat, m'.read (j.src.toNat + i) = m.read (j.src.toNat + i)) : JobDataAt m' j k where
  written := fun i hi => by
    rw [hdst _ (by omega), Nat.add_assoc, hdst _ (by omega), ← Nat.add_assoc]
    exact h.written i hi
  unwritten := fun i hl hu => (hdst i hu).trans (h.unwritten i hl hu)
  source := fun i hi => (hsrc i hi).trans (h.source i hi)

/-- At its START a job's data are as at its START. -/
theorem jobDataAt_zero (j : Job) : JobDataAt j.memAtStart j 0 where
  written := fun i hi => absurd hi (Nat.not_lt_zero i)
  unwritten := fun _ _ _ => rfl
  source := fun _ _ => rfl

/-- Writing the hex text of the next `n` source bytes carries a job's data on, where its buffers do not overlap
(60_exceptions.md R161 (b)). -/
theorem JobDataAt.next {m m' : Memory} {j : Job} {k n : Nat} (h : JobDataAt m j k) (hle : k + n ≤ j.len.toNat)
    (hno : noOverlap j.src j.dst j.len = true)
    (hw : HexWritten m m' (j.src.toNat + k) (j.dst.toNat + 2 * k) n) : JobDataAt m' j (k + n) where
  written := fun i hi => by
    rcases Nat.lt_or_ge i k with hik | hik
    · rw [hw.outside _ (by omega), hw.outside _ (by omega)]
      exact h.written i hik
    · have hc := hw.chars (i - k) (by omega)
      rwa [show j.src.toNat + k + (i - k) = j.src.toNat + i by omega,
        show j.dst.toNat + 2 * k + 2 * (i - k) = j.dst.toNat + 2 * i by omega, h.source i (by omega)] at hc
  unwritten := fun i hl hu => by
    rw [hw.outside _ (by omega)]
    exact h.unwritten i (by omega) hu
  source := fun i hi => by
    have hdisj := noOverlap_iff.mp hno
    rw [hw.outside _ (by omega)]
    exact h.source i hi

/-! ## Every step -/

theorem hostBlind_jobDataSound : HostBlind JobDataSound := fun _ _ _ _ _ h => h

theorem JobDataSound.of_idle {s : State} (h : s.phase = .idle) : JobDataSound s := fun hp => absurd h hp

/-- The job of a busy sound state is the one the cursors follow. -/
theorem SequencerSound.cursorsFollowJob {s : State} {j : Job} (h : SequencerSound s) (hp : s.phase ≠ .idle)
    (hj : s.job = some j) : CursorsFollowJob s j := by
  obtain ⟨j', hj', hc⟩ := h.job hp
  rwa [Option.some.inj (hj.symm.trans hj')]

/-- A host write that does not race touches neither buffer of the running job (70_reset_and_hazards.md R187). -/
theorem JobDataSound.memWrite {s : State} {a : Nat} {b : Byte} (hm : s.mem.wf = true) (hseq : SequencerSound s)
    (h : JobDataSound s) (hr : races s a .write = false) :
    JobDataSound { s with mem := s.mem.write a b } := by
  intro hp j hj
  have hlen := (hseq.cursorsFollowJob hp hj).len
  have hout : ¬ ((j.dst.toNat ≤ a ∧ a < j.dst.toNat + 2 * j.len.toNat) ∨
      (AccessKind.write = .write ∧ j.src.toNat ≤ a ∧ a < j.src.toNat + j.len.toNat)) := by
    rw [← races_of_job (s := s) hp hj, hr]
    exact Bool.false_ne_true
  refine (h hp j hj).congr ?_ (fun i hi => ?_) fun i hi => ?_
  · rw [hlen]
    exact Nat.sub_le _ _
  · rw [Memory.read_write hm, if_neg (by rintro rfl; exact hout (.inl ⟨by omega, by omega⟩))]
  · rw [Memory.read_write hm, if_neg (by rintro rfl; exact hout (.inr ⟨rfl, by omega, by omega⟩))]

theorem HostEffect.jobDataSound {s u : State} (hu : HostEffect s u) (hm : s.mem.wf = true) (hfit : RegistersFit s)
    (hseq : SequencerSound s) (h : JobDataSound s) : JobDataSound u := by
  cases hu with
  | same => exact h
  | src w hp => exact .of_idle hp
  | dst w hp => exact .of_idle hp
  | len w hp => exact .of_idle hp
  | start hp =>
    rcases start_cases s with ⟨r, -, hs⟩ | ⟨-, hs⟩
    · rw [hs]
      exact .of_idle hp
    · rw [hs]
      intro _ j hj
      cases hj
      have h0 : (startJob s).len.toNat - (startJob s).rem.toNat = 0 := by simp [Nat.mod_eq_of_lt hfit.len]
      rw [h0]
      exact jobDataAt_zero ⟨s.src, s.dst, s.len, s.mem⟩
  | race a k => exact h
  | memWrite a b hr hw => exact h.memWrite hm hseq hr

theorem engineTurn_jobDataSound {s t : State} (ht : engineTurn s = .next t) (hm : s.mem.wf = true)
    (hseq : SequencerSound s) (h : JobDataSound s) : JobDataSound t := by
  rcases engineTurn_sound_cases hseq.fast ht with rfl | ⟨n, hmove, hdata⟩ | ⟨-, -, rfl⟩
  · exact h
  · intro _ j hj
    have hj : s.job = some j := hmove.job.symm.trans hj
    have hc := hseq.cursorsFollowJob hmove.busy hj
    have hw := hc.hexWritten (hdata hm)
    have hrem := hc.rem
    have hn := hmove.le
    rw [← hc.src, ← hc.dst] at hw
    have hk : t.len.toNat - t.rem.toNat = s.len.toNat - s.rem.toNat + n := by
      rw [hmove.len, hmove.rem]
      omega
    rw [hk]
    exact (h hmove.busy j hj).next (by rw [hc.len]; omega) (by rw [hc.src, hc.dst, hc.len, hc.noOverlap]) hw
  · exact .of_idle rfl

/-- Settles O45: the host's writes keep out of the running job's buffers, and a data step writes the next characters of
its destination and nothing else. -/
theorem stepKeepsJobDataSound : Obligations.StepKeepsJobDataSound := by
  intro s t hm hfit hseq hdata h
  refine step_establishes
    (P := fun s => MemoryCanonical s ∧ RegistersFit s ∧ SequencerSound s ∧ JobDataSound s) (Q := JobDataSound)
    (hostBlind_memoryCanonical.and (hostBlind_registersFit.and (hostBlind_sequencerSound.and hostBlind_jobDataSound)))
    hostBlind_jobDataSound ?_ ?_ (fun _ => .of_idle rfl) h ⟨hm, hfit, hseq, hdata⟩
  · rintro v u hu ⟨hm, hfit, hseq, hdata⟩
    exact hu.jobDataSound hm.1 hfit hseq hdata
  · rintro v u hu ⟨hm, -, hseq, hdata⟩
    exact engineTurn_jobDataSound hu hm.1 hseq hdata

/-! ## The buffers bound the engine -/

/-- The engine's turn in a sound state touches only the running job's buffers. -/
structure StaysInBuffers (s t : State) : Prop where
  outside : ∀ a, (a < s.dst.toNat ∨ s.dst.toNat + 2 * s.len.toNat ≤ a) → t.mem.read a = s.mem.read a
  events : ∃ new, t.history = s.history ++ new ∧
    (∀ ev ∈ new, ∀ c ∈ ev.reads, s.src.toNat ≤ c.1 ∧ c.1 < s.src.toNat + s.len.toNat) ∧
    (∀ ev ∈ new, ∀ c ∈ ev.writes, s.dst.toNat ≤ c.1 ∧ c.1 < s.dst.toNat + 2 * s.len.toNat)

theorem StaysInBuffers.of_unchanged {s t : State} (hm : t.mem = s.mem) (hh : t.history = s.history) :
    StaysInBuffers s t :=
  ⟨fun a _ => by rw [hm], [], by simp [hh], by simp, by simp⟩

theorem CursorsFollowJob.staysInBuffers {s t : State} {j : Job} {n : Nat} (h : CursorsFollowJob s j)
    (hd : DataStepTo s t n) : StaysInBuffers s t := by
  have hrem := h.rem
  have hle := hd.le
  obtain ⟨ev, hev, -, hreads, hwrites⟩ := hd.encodes.history
  refine ⟨fun a ha => (h.hexWritten hd).outside a (by omega), [ev], hev, ?_, ?_⟩
  · intro e he c hc
    rw [List.mem_singleton.mp he, hreads] at hc
    obtain ⟨i, hi, rfl⟩ := List.mem_map.mp hc
    have hi := List.mem_range.mp hi
    dsimp only
    rw [h.readAddr (by omega)]
    omega
  · intro e he c hc
    rw [List.mem_singleton.mp he, hwrites] at hc
    obtain ⟨i, hi, rfl⟩ := List.mem_map.mp hc
    have hi := List.mem_range.mp hi
    dsimp only
    rw [h.writeAddr (by omega)]
    omega

theorem engineTurn_staysInBuffers {s t : State} (ht : engineTurn s = .next t) (hm : s.mem.wf = true)
    (hseq : SequencerSound s) : StaysInBuffers s t := by
  rcases engineTurn_sound_cases hseq.fast ht with rfl | ⟨n, hmove, hdata⟩ | ⟨-, -, rfl⟩
  · exact .of_unchanged rfl rfl
  · obtain ⟨j, -, hc⟩ := hseq.job hmove.busy
    exact hc.staysInBuffers (hdata hm)
  · exact .of_unchanged rfl rfl

theorem step_eq_engineTurn_popTurn {s : State} (hn : nextTurn s = .engine) :
    step s = engineTurn (popTurn s) := by
  simp only [step, hn, takeTurn]

/-- Settles O40: a data step's cursors stand inside the buffers for as many bytes as it consumes. -/
theorem engineStaysInsideTheJobBuffers : Obligations.EngineStaysInsideTheJobBuffers := by
  intro s t hm _ hseq hn h
  obtain ⟨hout, hev⟩ := engineTurn_staysInBuffers ((step_eq_engineTurn_popTurn hn).symm.trans h) hm.1
    (hostBlind_sequencerSound.popTurn hseq)
  exact ⟨hout, hev⟩

end Sys2Proof.Machine
end

section
/-! Whole jobs by what they leave in memory (44_entry_and_host.md R130, R138; 41_bulk.md R94): the hex text of the source
at the destination, which determines the memory and which a second job over the rest of the source carries on. -/

namespace Sys2Proof.Machine

/-! ## The hex text in memory -/

theorem hexWritten_zero (m : Memory) (src dst : Nat) : HexWritten m m src dst 0 :=
  ⟨fun i hi => absurd hi (Nat.not_lt_zero i), fun _ _ => rfl⟩

/-- The hex text of no byte stands anywhere. -/
theorem HexWritten.move {m m' : Memory} {src dst : Nat} (h : HexWritten m m' src dst 0) (src' dst' : Nat) :
    HexWritten m m' src' dst' 0 :=
  ⟨fun i hi => absurd hi (Nat.not_lt_zero i), fun a _ => h.outside a (by omega)⟩

/-- The hex text of a source's first part and then of its rest is that of the source, where it does not overlap the
destination (60_exceptions.md R161 (b)). -/
theorem HexWritten.append {m m' m'' : Memory} {src dst k n : Nat} (h : HexWritten m m' src dst k)
    (h' : HexWritten m' m'' (src + k) (dst + 2 * k) n)
    (hno : k + n = 0 ∨ src + (k + n) ≤ dst ∨ dst + 2 * (k + n) ≤ src) : HexWritten m m'' src dst (k + n) where
  chars := fun i hi => by
    rcases Nat.lt_or_ge i k with hik | hik
    · rw [h'.outside _ (by omega), h'.outside _ (by omega)]
      exact h.chars i hik
    · have hc := h'.chars (i - k) (by omega)
      rwa [show src + k + (i - k) = src + i by omega, show dst + 2 * k + 2 * (i - k) = dst + 2 * i by omega,
        h.outside (src + i) (by omega)] at hc
  outside := fun a ha => by
    rw [h'.outside a (by omega), h.outside a (by omega)]

/-- The hex text determines every byte. -/
theorem HexWritten.read_eq {m m' m'' : Memory} {src dst n : Nat} (h : HexWritten m m' src dst n)
    (h' : HexWritten m m'' src dst n) (a : Nat) : m'.read a = m''.read a := by
  by_cases ha : a < dst ∨ dst + 2 * n ≤ a
  · rw [h.outside a ha, h'.outside a ha]
  · rcases Nat.even_or_odd' (a - dst) with ⟨i, hi | hi⟩
    · rw [show a = dst + 2 * i by omega, (h.chars i (by omega)).1, (h'.chars i (by omega)).1]
    · rw [show a = dst + 2 * i + 1 by omega, (h.chars i (by omega)).2, (h'.chars i (by omega)).2]

/-- The hex text determines canonical memory. -/
theorem HexWritten.mem_eq {m m' m'' : Memory} {src dst n : Nat} (h : HexWritten m m' src dst n)
    (h' : HexWritten m m'' src dst n) (hwf : m'.wf = true) (hwf' : m''.wf = true) : m' = m'' :=
  Memory.ext_of_wf hwf hwf' (h.read_eq h')

/-! ## A job from its START to its end -/

/-- What a job of which `k` bytes are encoded has done since its START: the hex text of the `k` bytes, and nothing to its
arguments. -/
structure JobProgress (s t : State) (k : Nat) : Prop where
  text : HexWritten s.mem t.mem s.src.toNat s.dst.toNat k
  src : t.src = s.src
  dst : t.dst = s.dst
  len : t.len = s.len

theorem jobProgress_startJob (s : State) : JobProgress s (startJob s) 0 :=
  ⟨hexWritten_zero _ _ _, rfl, rfl, rfl⟩

theorem JobProgress.next {s t u : State} {k n : Nat} (h : JobProgress s t k) (hs : ReadyToStart s)
    (hj : JobRunning s t k) (hd : DataStepTo t u n) : JobProgress s u (k + n) := by
  have hle := hj.add_le hd
  have hno := noOverlap_iff.mp hs.noOverlap
  have hstep : HexWritten t.mem u.mem (s.src.toNat + k) (s.dst.toNat + 2 * k) n :=
    hd.encodes.hexWritten (fun i hi => by rw [hj.readAddr hs (by omega), Nat.add_assoc])
      fun i hi => by rw [hj.writeAddr hs (by omega), Nat.add_assoc]
  exact ⟨h.text.append hstep (by omega), ((congrArg State.src hd.encodes.frame).trans rfl).trans h.src,
    ((congrArg State.dst hd.encodes.frame).trans rfl).trans h.dst,
    ((congrArg State.len hd.encodes.frame).trans rfl).trans h.len⟩

/-- Every job ends within the step bound, with the hex text of its source written (44_entry_and_host.md R130, R136). -/
theorem ReadyToStart.job_ends {s : State} (hs : ReadyToStart s) :
    ∃ t, JobEndsIn s (finishJob t) ∧ JobRunning s t s.len.toNat ∧ JobProgress s t s.len.toNat :=
  hs.job_induction (P := fun k t => JobProgress s t k) (fun hj hd h => h.next hs hj hd) (jobProgress_startJob s)

section
variable {s t : State} (h : JobRunning s t s.len.toNat)
include h

theorem JobRunning.srcEnd_finishJob :
    (finishJob t).srcEnd.toNat = (s.src.toNat + s.len.toNat) % 2 ^ addrBits s.config := by
  rw [finishJob_srcEnd, truncAddr_toNat, h.rs, h.config, Nat.mod_mod]

theorem JobRunning.dstEnd_finishJob :
    (finishJob t).dstEnd.toNat = (s.dst.toNat + 2 * s.len.toNat) % 2 ^ addrBits s.config := by
  rw [finishJob_dstEnd, truncAddr_toNat, h.wd, h.config, Nat.mod_mod]

end

/-- Settles O47: the job's end is FINISH from the state in which its whole hex text is written. -/
theorem jobWritesTheHexOfItsSource : Obligations.JobWritesTheHexOfItsSource := by
  intro s hs
  obtain ⟨t, hend, hj, ht⟩ := hs.job_ends
  exact ⟨finishJob t, hend, ⟨hj.noProgram, rfl, hj.live⟩, rfl, ht.text.chars, ht.text.outside, hj.srcEnd_finishJob,
    hj.dstEnd_finishJob, ht.src, ht.dst, ht.len⟩

/-! ## MAX_BATCH -/

theorem ReadyToStart.withMaxBatch {s : State} (h : ReadyToStart s) (b : MaxBatch) :
    ReadyToStart { s with config := { s.config with maxBatch := b } } where
  live := h.live
  idle := h.idle
  noProgram := h.noProgram
  noTurns := h.noTurns
  canonical := h.canonical
  fit :=
    have ⟨hsrc, hdst, hlen, hse, hde, hrs, hwd, hrem⟩ := h.fit
    ⟨hsrc, hdst, hlen, hse, hde, hrs, hwd, hrem⟩
  noWrap := h.noWrap
  noOverlap := h.noOverlap
  readable := h.readable
  writable := h.writable

/-- Settles O50: under either MAX_BATCH the job ends with the hex text of the same source, which determines memory. -/
theorem maxBatchChangesNoOutput : Obligations.MaxBatchChangesNoOutput := by
  intro s b hs
  obtain ⟨t, hend, hj, ht⟩ := hs.job_ends
  obtain ⟨t', hend', hj', ht'⟩ := (hs.withMaxBatch b).job_ends
  refine ⟨finishJob t, finishJob t', hend, hend', ht.text.mem_eq ht'.text hj.canonical hj'.canonical,
    BitVec.eq_of_toNat_eq ?_, BitVec.eq_of_toNat_eq ?_, rfl⟩
  · exact hj.srcEnd_finishJob.trans hj'.srcEnd_finishJob.symm
  · exact hj.dstEnd_finishJob.trans hj'.dstEnd_finishJob.symm

/-! ## Chained jobs -/

theorem ReadyToStart.firstPart {s : State} {n₁ n : Word} (h : ReadyToStart { s with len := n })
    (hle : n₁.toNat ≤ n.toNat) : ReadyToStart { s with len := n₁ } := by
  have hwrap := noWrap_iff.mp h.noWrap
  have hno := noOverlap_iff.mp h.noOverlap
  obtain ⟨hsrc, hdst, hlen, hse, hde, hrs, hwd, hrem⟩ := h.fit
  dsimp only at hwrap hno hlen
  exact {
    live := h.live
    idle := h.idle
    noProgram := h.noProgram
    noTurns := h.noTurns
    canonical := h.canonical
    fit := ⟨hsrc, hdst, lt_of_le_of_lt hle hlen, hse, hde, hrs, hwd, hrem⟩
    noWrap := noWrap_iff.mpr ⟨by dsimp only; omega, by dsimp only; omega⟩
    noOverlap := noOverlap_iff.mpr (by dsimp only; omega)
    readable := fun i hi => h.readable i (lt_of_lt_of_le hi hle)
    writable := fun i hi => h.writable i (lt_of_lt_of_le hi (Nat.mul_le_mul_left 2 hle)) }

/-- The state in which the second of two chained jobs starts: its arguments are the first one's end cursors and the
length of the rest (44_entry_and_host.md R138). -/
def chainedJob (t : State) (len : Word) : State :=
  { finishJob t with src := (finishJob t).srcEnd, dst := (finishJob t).dstEnd, len := len }

section
variable {s t : State} {n₁ n₂ n : Word} (hs : ReadyToStart { s with len := n }) (hn : n.toNat = n₁.toNat + n₂.toNat)
  (hj : JobRunning { s with len := n₁ } t n₁.toNat)
include hs hn hj

/-- The first job's end cursors stand at the rest of both buffers, unless no byte is left (log 14). -/
theorem chainedJob_cursors (hpos : n₂.toNat ≠ 0) :
    (chainedJob t n₂).src.toNat = s.src.toNat + n₁.toNat ∧
      (chainedJob t n₂).dst.toNat = s.dst.toNat + 2 * n₁.toNat := by
  obtain ⟨hsrc, hdst⟩ := noWrap_iff.mp hs.noWrap
  dsimp only at hsrc hdst
  exact ⟨hj.srcEnd_finishJob.trans (Nat.mod_eq_of_lt (by dsimp only; omega)),
    hj.dstEnd_finishJob.trans (Nat.mod_eq_of_lt (by dsimp only; omega))⟩

/-- A START of the second job is accepted where the one job over the whole source is (44_entry_and_host.md R138). -/
theorem readyToStart_chainedJob : ReadyToStart (chainedJob t n₂) := by
  have hcur := chainedJob_cursors hs hn hj
  have hconfig : (chainedJob t n₂).config = s.config := hj.config
  have hlen : (chainedJob t n₂).len = n₂ := rfl
  have hwrap := noWrap_iff.mp hs.noWrap
  have hno := noOverlap_iff.mp hs.noOverlap
  have hfitlen := hs.fit.len
  have hfit : RegistersFit (chainedJob t n₂) := by
    have hrs : t.rs.toNat < 2 ^ addrBits t.config := by
      rw [hj.rs, hj.config]
      exact Nat.mod_lt _ (by positivity)
    have hwd : t.wd.toNat < 2 ^ addrBits t.config := by
      rw [hj.wd, hj.config]
      exact Nat.mod_lt _ (by positivity)
    have hrem : t.rem.toNat < 2 ^ addrBits t.config := by
      rw [hj.rem, Nat.sub_self]
      positivity
    have hn₂ : n₂.toNat < 2 ^ addrBits t.config := by
      rw [hj.config]
      exact lt_of_le_of_lt (by dsimp only; omega) hfitlen
    exact ⟨truncAddr_lt _ _, truncAddr_lt _ _, hn₂, truncAddr_lt _ _, truncAddr_lt _ _, hrs, hwd, hrem⟩
  have hsrc := hfit.src
  have hdst := hfit.dst
  rw [hconfig] at hsrc hdst
  dsimp only at hwrap hno
  exact {
    live := hj.live
    idle := rfl
    noProgram := hj.noProgram
    noTurns := hj.noTurns
    canonical := hj.canonical
    fit := hfit
    noWrap := noWrap_iff.mpr (by rw [hconfig, hlen]; omega)
    noOverlap := noOverlap_iff.mpr (by rw [hlen]; omega)
    readable := fun i hi => by
      rw [hlen] at hi
      rw [hconfig, (hcur (by omega)).1, Nat.add_assoc]
      exact hs.readable _ (by dsimp only; omega)
    writable := fun i hi => by
      rw [hlen] at hi
      rw [hconfig, (hcur (by omega)).2, Nat.add_assoc]
      exact hs.writable _ (by dsimp only; omega) }

omit hs in
/-- The end cursors of the second job are those of the one job over the whole source. -/
theorem chainedJob_ends :
    ((chainedJob t n₂).src.toNat + n₂.toNat) % 2 ^ addrBits s.config =
        (s.src.toNat + n.toNat) % 2 ^ addrBits s.config ∧
      ((chainedJob t n₂).dst.toNat + 2 * n₂.toNat) % 2 ^ addrBits s.config =
        (s.dst.toNat + 2 * n.toNat) % 2 ^ addrBits s.config := by
  constructor
  · rw [show (chainedJob t n₂).src.toNat = _ from hj.srcEnd_finishJob, Nat.mod_add_mod, hn, Nat.add_assoc]
  · rw [show (chainedJob t n₂).dst.toNat = _ from hj.dstEnd_finishJob, Nat.mod_add_mod, hn, Nat.mul_add, Nat.add_assoc]

/-- The second job carries the hex text on to that of the whole source. -/
theorem chainedJob_text {m : Memory} (ht : HexWritten s.mem t.mem s.src.toNat s.dst.toNat n₁.toNat)
    (hm : HexWritten t.mem m (chainedJob t n₂).src.toNat (chainedJob t n₂).dst.toNat n₂.toNat) :
    HexWritten s.mem m s.src.toNat s.dst.toNat n.toNat := by
  have hno := noOverlap_iff.mp hs.noOverlap
  dsimp only at hno
  have hrest : HexWritten t.mem m (s.src.toNat + n₁.toNat) (s.dst.toNat + 2 * n₁.toNat) n₂.toNat := by
    by_cases h0 : n₂.toNat = 0
    · rw [h0] at hm ⊢
      exact hm.move _ _
    · obtain ⟨hsrc, hdst⟩ := chainedJob_cursors hs hn hj h0
      rwa [hsrc, hdst] at hm
  rw [hn]
  exact ht.append hrest (by omega)

end

/-- Settles O51: the second job starts at the first one's end cursors and carries its hex text on, to the text the one job
writes. -/
theorem chainedJobsEqualOneJob : Obligations.ChainedJobsEqualOneJob := by
  intro s n₁ n₂ hlt hs
  have hn : (n₁ + n₂).toNat = n₁.toNat + n₂.toNat := by rw [BitVec.toNat_add, Nat.mod_eq_of_lt hlt]
  obtain ⟨t, hu, hj, ht⟩ := (hs.firstPart (n₁ := n₁) (by omega)).job_ends
  obtain ⟨t', hv, hj', ht'⟩ := (readyToStart_chainedJob hs hn hj).job_ends
  obtain ⟨t'', hw, hj'', ht''⟩ := hs.job_ends
  have hconfig : (chainedJob t n₂).config = s.config := hj.config
  obtain ⟨hsrc, hdst⟩ := chainedJob_ends hn hj
  refine ⟨finishJob t, finishJob t', finishJob t'', hu, hv, hw,
    (chainedJob_text hs hn hj ht.text ht'.text).mem_eq ht''.text hj'.canonical hj''.canonical,
    BitVec.eq_of_toNat_eq ?_, BitVec.eq_of_toNat_eq ?_⟩
  · rw [hj'.srcEnd_finishJob, hj''.srcEnd_finishJob, hconfig]
    exact hsrc
  · rw [hj'.dstEnd_finishJob, hj''.dstEnd_finishJob, hconfig]
    exact hdst

end Sys2Proof.Machine
end

section
/-! The phases of a whole job (44_entry_and_host.md R135): each data step consumes what its phase stands for, and what is
left is the job's own phase list with its head taken off. -/

namespace Sys2Proof.Machine

/-! ## The phases of what is left -/

/-- How many 32-byte batches `r` bytes take (41_bulk.md R96, R97). -/
def batches32 (c : Config) (r : Nat) : Nat :=
  match c.maxBatch with
  | .b32 => r / 32
  | .b16 => 0

/-- How many 16-byte batches `r` bytes take after their 32-byte ones. -/
def batches16 (c : Config) (r : Nat) : Nat :=
  match c.maxBatch with
  | .b32 => r % 32 / 16
  | .b16 => r / 16

/-- The data phases that the multiplexer selects for `r` bytes, without the entry's FAST1 (41_bulk.md R97). -/
def multiplexedPhases (c : Config) (r : Nat) : List Phase :=
  List.replicate (batches32 c r) .bulk32 ++ List.replicate (batches16 c r) .bulk16 ++
    List.replicate (r % 16 / 8) .bulk8 ++ (if r % 8 ≠ 0 then [.rem] else [])

/-- From two bytes on, a job's phases are the multiplexer's. -/
theorem jobPhases_of_ge {c : Config} {n : Nat} (h : 2 ≤ n) : jobPhases c n = multiplexedPhases c n := by
  unfold jobPhases multiplexedPhases batches32 batches16
  rw [if_neg (by omega), if_neg (by omega)]
  cases c.maxBatch <;> rfl

theorem multiplexedPhases_zero (c : Config) : multiplexedPhases c 0 = [] := by
  unfold multiplexedPhases batches32 batches16
  cases c.maxBatch <;> rfl

section
variable {c : Config} {r : Nat}

theorem multiplexedPhases_bulk32 (hc : c.maxBatch = .b32) (h : 32 ≤ r) :
    multiplexedPhases c r = .bulk32 :: multiplexedPhases c (r - 32) := by
  have h32 : batches32 c r = batches32 c (r - 32) + 1 := by simp only [batches32, hc]; omega
  have h16 : batches16 c r = batches16 c (r - 32) := by simp only [batches16, hc]; omega
  have h8 : (r - 32) % 16 = r % 16 := by omega
  have h1 : (r - 32) % 8 = r % 8 := by omega
  rw [multiplexedPhases, multiplexedPhases, h32, h16, h8, h1, List.replicate_succ]
  rfl

theorem batches32_eq_zero (h : c.maxBatch = .b16 ∨ r < 32) : batches32 c r = 0 := by
  unfold batches32
  cases hb : c.maxBatch with
  | b16 => rfl
  | b32 => exact Nat.div_eq_of_lt (by simpa [hb] using h)

theorem multiplexedPhases_bulk16 (h : 16 ≤ r) (hc : c.maxBatch = .b16 ∨ r < 32) :
    multiplexedPhases c r = .bulk16 :: multiplexedPhases c (r - 16) := by
  have h32 : batches32 c r = 0 := batches32_eq_zero hc
  have h32' : batches32 c (r - 16) = 0 := batches32_eq_zero (hc.imp_right fun h => by omega)
  have h16 : batches16 c r = batches16 c (r - 16) + 1 := by
    unfold batches16
    cases hb : c.maxBatch with
    | b16 => dsimp only; omega
    | b32 =>
      have hr : r < 32 := by simpa [hb] using hc
      dsimp only
      omega
  have h8 : (r - 16) % 16 = r % 16 := by omega
  have h1 : (r - 16) % 8 = r % 8 := by omega
  rw [multiplexedPhases, multiplexedPhases, h32, h32', h16, h8, h1, List.replicate_succ]
  rfl

/-- Below 16 bytes no batch of 16 or more is taken. -/
theorem batches_of_lt (c : Config) (h : r < 16) : batches32 c r = 0 ∧ batches16 c r = 0 := by
  refine ⟨batches32_eq_zero (.inr (by omega)), ?_⟩
  unfold batches16
  cases c.maxBatch with
  | b32 => dsimp only; omega
  | b16 => exact Nat.div_eq_of_lt h

theorem multiplexedPhases_bulk8 (hl : 8 ≤ r) (hu : r < 16) :
    multiplexedPhases c r = .bulk8 :: multiplexedPhases c (r - 8) := by
  obtain ⟨h32, h16⟩ := batches_of_lt c hu
  obtain ⟨h32', h16'⟩ := batches_of_lt c (r := r - 8) (by omega)
  have h8 : r % 16 / 8 = 1 := by omega
  have h8' : (r - 8) % 16 / 8 = 0 := by omega
  have h1 : (r - 8) % 8 = r % 8 := by omega
  rw [multiplexedPhases, multiplexedPhases, h32, h16, h32', h16', h8, h8', h1]
  rfl

theorem multiplexedPhases_rem (hl : 1 ≤ r) (hu : r ≤ 7) : multiplexedPhases c r = [.rem] := by
  obtain ⟨h32, h16⟩ := batches_of_lt c (r := r) (by omega)
  have h8 : r % 16 / 8 = 0 := by omega
  rw [multiplexedPhases, h32, h16, h8, if_pos (by omega)]
  rfl

end

/-- With bytes left, the multiplexer's choice is the first of their phases, and the others are those of the bytes it
leaves. -/
theorem multiplexedPhases_eq_cons {t : State} (hr : 0 < t.rem.toNat)
    (hp : t.phase = nextPhase t.config t.rem.toNat) :
    multiplexedPhases t.config t.rem.toNat =
      t.phase :: multiplexedPhases t.config (t.rem.toNat - phaseBytes t t.phase) := by
  have hnext := (nextPhaseIsTheLargestBatch t.config t.rem.toNat).2.1
  rcases nextPhase_cases t.config t.rem.toNat with ⟨h, hl, hc⟩ | ⟨h, hl⟩ | ⟨h, hl, hu⟩ | ⟨h, hl, hu⟩ | ⟨-, h0⟩
  · rw [hp, h]
    exact multiplexedPhases_bulk32 hc hl
  · rw [hp, h]
    exact multiplexedPhases_bulk16 hl (hnext.mp h).2
  · rw [hp, h]
    exact multiplexedPhases_bulk8 hl hu
  · rw [hp, h, multiplexedPhases_rem hl hu, phaseBytes, Nat.sub_self, multiplexedPhases_zero]
  · omega

/-- The phases still to come in a job of `len` bytes of which `k` are encoded. -/
def phasesLeft (c : Config) (len k : Nat) : List Phase :=
  if k = 0 then jobPhases c len else multiplexedPhases c (len - k)

theorem phasesLeft_end (c : Config) (len : Nat) : phasesLeft c len len = [] := by
  unfold phasesLeft
  split_ifs with h
  · rw [h]
    rfl
  · rw [Nat.sub_self, multiplexedPhases_zero]

/-! ## The data steps -/

/-- A data step consumes what its phase stands for (30_encoding.md R66). -/
theorem DataStepTo.eq_phaseBytes {t u : State} {n : Nat} (hd : DataStepTo t u n) (h : engineTurn t = .next u)
    (hfast : t.phase = .fast1 → t.rem.toNat = 1) : n = phaseBytes t t.phase := by
  have hpos := hd.pos
  have hle := hd.le
  have hrem := hd.encodes.rem
  obtain ⟨-, ⟨rfl, -⟩ | ⟨hp, -, rfl⟩ | ⟨b, hb, hble, -, rfl⟩ | ⟨hp, -, -, -, rfl⟩ | ⟨-, h0, -⟩⟩ := engineTurn_cases h
  · omega
  · have h1 := hfast hp
    rw [hp, phaseBytes]
    omega
  · have hbytes : phaseBytes t t.phase = b := by rcases hb with ⟨hp, rfl⟩ | ⟨hp, rfl⟩ | ⟨hp, rfl⟩ <;> rw [hp] <;> rfl
    rw [(movesCursors_afterBulk hb hble).rem] at hrem
    omega
  · rw [(movesCursors_afterRem (by simp [hp])).rem] at hrem
    rw [hp, phaseBytes]
    omega
  · omega

theorem JobRunning.rem_of_fast1 {s t : State} {k : Nat} (h : JobRunning s t k) (hp : t.phase = .fast1) :
    t.rem.toNat = 1 := by
  rw [h.rem]
  rcases jobPhase_cases s.config s.len.toNat k with hj | ⟨-, h1⟩
  · exact absurd (hj.symm.trans (h.phase.symm.trans hp)) (nextPhase_ne _ _).2.1
  · exact h1

/-- Only a job of a single byte enters a phase that is not the multiplexer's. -/
theorem jobPhase_eq_nextPhase {c : Config} {len k : Nat} (h : ¬(k = 0 ∧ len = 1)) :
    jobPhase c len k = nextPhase c (len - k) := by
  unfold jobPhase
  split_ifs with hk
  · subst hk
    exact (entryPhase_eq c len).resolve_right fun h1 => h ⟨rfl, h1.2⟩
  · rfl

theorem phasesLeft_eq_multiplexedPhases {c : Config} {len k : Nat} (h : ¬(k = 0 ∧ len = 1)) (hk : k < len) :
    phasesLeft c len k = multiplexedPhases c (len - k) := by
  unfold phasesLeft
  split_ifs with h0
  · rw [jobPhases_of_ge (by omega), h0, Nat.sub_zero]
  · rfl

/-- The phase of a job's data step is the first of the phases left, and the step leaves the others. -/
theorem JobRunning.phasesLeft_eq_cons {s t u : State} {k n : Nat} (h : JobRunning s t k) (hd : DataStepTo t u n)
    (ht : engineTurn t = .next u) :
    phasesLeft s.config s.len.toNat k = t.phase :: phasesLeft s.config s.len.toNat (k + n) := by
  have hpos := hd.pos
  have hle := h.add_le hd
  have hrem := h.rem
  have hbytes := hd.eq_phaseBytes ht h.rem_of_fast1
  have hrest : phasesLeft s.config s.len.toNat (k + n) = multiplexedPhases s.config (s.len.toNat - (k + n)) :=
    if_neg (by omega)
  by_cases h1 : k = 0 ∧ s.len.toNat = 1
  · obtain ⟨rfl, h1⟩ := h1
    obtain rfl : n = 1 := by omega
    rw [hrest, h.phase, h1, multiplexedPhases_zero]
    rfl
  · have hp := h.phase.trans (jobPhase_eq_nextPhase h1)
    rw [← h.config, ← hrem] at hp
    have hcons := multiplexedPhases_eq_cons (by omega) hp
    rw [← hbytes, h.config, hrem, Nat.sub_sub] at hcons
    rw [phasesLeft_eq_multiplexedPhases h1 (by omega), hrest, hcons]

/-- From any state of the job the engine visits the phases left, within the step bound (44_entry_and_host.md R135,
R136). -/
theorem JobRunning.visits_phasesLeft {s : State} (hs : ReadyToStart s) {k : Nat} {t : State}
    (h : JobRunning s t k) : ∃ u m new, m ≤ (s.len.toNat - k + 7) / 8 + 1 ∧ runSteps m t = .next u ∧
      u.phase = .idle ∧ u.history = t.history ++ new ∧
      new.map StepEvents.phase = phasesLeft s.config s.len.toNat k := by
  induction hr : s.len.toNat - k using Nat.strong_induction_on generalizing k t with
  | _ r ih =>
    rcases Nat.lt_or_ge k s.len.toNat with hk | hk
    · obtain ⟨t', n, ht, hd⟩ := h.step_dataStepTo hs hk
      have hpos := hd.pos
      have hlarge := hd.large
      have hrem := h.rem
      obtain ⟨ev, hev, hphase, -, -⟩ := hd.encodes.history
      obtain ⟨u, m, new, hm, hrun, hidle, hnew, hphases⟩ := ih (s.len.toNat - (k + n)) (by omega) (h.next hd) rfl
      refine ⟨u, m + 1, ev :: new, by omega, (runSteps_succ ht m).trans hrun, hidle, ?_, ?_⟩
      · rw [hnew, hev, List.append_assoc, List.singleton_append]
      · rw [step_eq_engineTurn h.noTurns h.noProgram] at ht
        rw [List.map_cons, hphase, hphases, h.phasesLeft_eq_cons hd ht]
    · obtain rfl : k = s.len.toNat := le_antisymm h.le hk
      exact ⟨finishJob t, 1, [], by omega, runSteps_succ h.step_finish 0, rfl, (List.append_nil _).symm,
        (phasesLeft_end _ _).symm⟩

/-- Settles O48: at the START all of the job's phases are left. -/
theorem jobVisitsItsPhaseSequence : Obligations.JobVisitsItsPhaseSequence := by
  intro s hs
  obtain ⟨u, m, new, hm, hrun, hidle, hnew, hphases⟩ := hs.jobRunning_startJob.visits_phasesLeft hs
  exact ⟨u, new, ⟨startJob s, m, hs.exec_start, by omega, hrun, hidle⟩, hnew, hphases⟩

end Sys2Proof.Machine
end

section
/-! The engine's steps one by one (41_bulk.md R98 to R102, 42_remainder.md R110 to R115, 43_fast_path.md R125, R126):
their effect, their guards, and a STUCK engine (60_exceptions.md R163). -/

namespace Sys2Proof.Machine

/-! ## The effect of a data step -/

theorem exec_eq_engineTurn {s : State} {p : Phase} {i : Instr} (hp : s.phase = p) (hi : decodePhase p.code = i) :
    exec i s = engineTurn s := by
  subst hp hi
  rfl

/-- Settles O20: the enabled bulk step is `afterBulk`, a data step of its batch. -/
theorem bulkStepsEncodeTheirBatch : Obligations.BulkStepsEncodeTheirBatch := by
  intro s p b i hmem hf hp hle hc hwf hr hw
  simp only [List.mem_cons, List.not_mem_nil, or_false, Prod.mk.injEq] at hmem
  have hi : decodePhase p.code = i := by
    rcases hmem with ⟨rfl, -, rfl⟩ | ⟨rfl, -, rfl⟩ | ⟨rfl, -, rfl⟩ <;> rfl
  have hb : p = .bulk32 ∧ b = 32 ∨ p = .bulk16 ∧ b = 16 ∨ p = .bulk8 ∧ b = 8 :=
    hmem.imp (fun h => ⟨h.1, h.2.1⟩) (Or.imp (fun h => ⟨h.1, h.2.1⟩) fun h => ⟨h.1, h.2.1⟩)
  have hg : phaseGuard s p = true := by
    rcases hb with ⟨rfl, rfl⟩ | ⟨rfl, rfl⟩ | ⟨rfl, rfl⟩
    · simp [phaseGuard, hle, hc rfl]
    · simp [phaseGuard, hle]
    · simp [phaseGuard, hle]
  have hd : DataStepTo s (afterBulk b s) b := dataStepTo_afterBulk hwf (by omega) (by omega) hle
  exact ⟨hi, afterBulk b s,
    (exec_eq_engineTurn hp hi).trans (engineTurn_bulk hf hp hb hg (admitted_iff.mpr ⟨hr, hw⟩)), hd.encodes, hd.phase,
    rfl, rfl⟩

theorem admitted_one {s : State} (hr : readable s.config (portAddr s.config s.rs 0) = true)
    (hw0 : writable s.config (portAddr s.config s.wd 0) = true)
    (hw1 : writable s.config (portAddr s.config s.wd 1) = true) : admitted s 1 = true := by
  refine admitted_iff.mpr ⟨fun k hk => ?_, fun k hk => ?_⟩
  · obtain rfl : k = 0 := by omega
    exact hr
  · obtain rfl | rfl : k = 0 ∨ k = 1 := by omega
    · exact hw0
    · exact hw1

/-- Settles O22: the enabled FAST1 step is `afterFast1`, a data step of one byte. -/
theorem fast1EncodesOneByte : Obligations.Fast1EncodesOneByte := by
  intro s hf hp h1 hwf hr hw0 hw1
  have hd : DataStepTo s (afterFast1 s) 1 := dataStepTo_afterFast1 hwf h1
  exact ⟨rfl, afterFast1 s, (exec_eq_engineTurn hp rfl).trans (engineTurn_fast1 hf hp (admitted_one hr hw0 hw1)),
    hd.encodes, rfl, rfl, rfl⟩

/-- Settles O23: both steps store the batch transform of the one byte at RS. -/
theorem fast1EqualsRemOfOneByte : Obligations.Fast1EqualsRemOfOneByte := by
  intro s hf hp h1 hr hw0 hw1
  have ha : admitted s 1 = true := admitted_one hr hw0 hw1
  have hrem : engineTurn { s with phase := .rem } = .next (afterRem { s with phase := .rem }) :=
    engineTurn_rem hf rfl (by simp [phaseGuard, h1]) (by rw [h1]; exact ha)
  refine ⟨afterFast1 s, afterRem { s with phase := .rem },
    (exec_eq_engineTurn hp rfl).trans (engineTurn_fast1 hf hp ha), hrem, ?_, ?_, ?_, rfl, rfl⟩
  all_goals
    simp only [afterFast1, afterRem, h1]
    rfl

/-! ## SCALAR and CHARS after REM -/

/-- SCALAR holds the bytes read, with zeros above (42_remainder.md R110). -/
theorem assemble_byte (s : State) (r : Nat) {k : Nat} (hk : k < 8) :
    byteOf (assemble s r) k = if k < r then s.mem.read (portAddr s.config s.rs k) else 0 := by
  rw [assemble, byteOf_pack _ (by omega), List.getD_eq_getElem?_getD]
  split_ifs with h
  · rw [readBytes_getElem? _ _ _ h, Option.getD_some]
  · rw [List.getElem?_eq_none (by rw [readBytes_length]; omega), Option.getD_none]

/-- CHARS holds the characters of SCALAR's bytes, the high nibble's first (42_remainder.md R112). -/
theorem transformScalar_byte (v : BitVec 64) {i : Nat} (hi : i < 8) :
    byteOf (transformScalar v) (2 * i) = digit ((byteOf v i).extractLsb' 4 4) ∧
      byteOf (transformScalar v) (2 * i + 1) = digit ((byteOf v i).extractLsb' 0 4) := by
  have hbyte : (bytesOf v 8)[i]? = some (byteOf v i) := by simp [bytesOf, hi]
  constructor
  · rw [transformScalar, byteOf_pack _ (by omega), List.getD_eq_getElem?_getD, xform_getElem?_even, hbyte]
    rfl
  · rw [transformScalar, byteOf_pack _ (by omega), List.getD_eq_getElem?_getD, xform_getElem?_odd, hbyte]
    rfl

/-- CHARS holds what REM stored, and the characters of zeros above it (42_remainder.md R113, R115). -/
theorem afterRem_chars_byte {s : State} (he : EncodesAtCursors s (afterRem s) s.rem.toNat) {j : Nat} (hj : j < 16) :
    byteOf (afterRem s).chars j =
      if j < 2 * s.rem.toNat then (afterRem s).mem.read (portAddr s.config s.wd j) else digit 0#4 := by
  have hchars : (afterRem s).chars = transformScalar (assemble s s.rem.toNat) := rfl
  rw [hchars]
  rcases Nat.even_or_odd' j with ⟨i, rfl | rfl⟩
  · rw [(transformScalar_byte _ (by omega)).1, assemble_byte s _ (by omega)]
    by_cases hi : i < s.rem.toNat
    · rw [if_pos hi, if_pos (by omega), (he.chars i hi).1]
    · rw [if_neg hi, if_neg (by omega)]
      rfl
  · rw [(transformScalar_byte _ (by omega)).2, assemble_byte s _ (by omega)]
    by_cases hi : i < s.rem.toNat
    · rw [if_pos hi, if_pos (by omega), (he.chars i hi).2]
    · rw [if_neg hi, if_neg (by omega)]
      rfl

/-- Settles O21: the enabled REM step is `afterRem`, whose SCALAR and CHARS are taken apart byte by byte. -/
theorem remStepEncodesTheRemainder : Obligations.RemStepEncodesTheRemainder := by
  intro s hf hp h1 h7 hwf hr hw
  have hd : DataStepTo s (afterRem s) s.rem.toNat := dataStepTo_afterRem hwf h1 h7
  have hg : phaseGuard s .rem = true := decide_eq_true ⟨h1, h7⟩
  exact ⟨rfl, afterRem s,
    (exec_eq_engineTurn hp rfl).trans (engineTurn_rem hf hp hg (admitted_iff.mpr ⟨hr, hw⟩)), hd.encodes, rfl,
    fun k hk => assemble_byte s _ hk, fun j hj => afterRem_chars_byte hd.encodes hj⟩

/-! ## Refused, waiting, idle -/

/-- In its phase, a data step whose guard is false is refused (41_bulk.md R98). -/
theorem engineEnabled_guardedData_refused {s u : State} {p : Phase} {n : Nat} (hf : s.fault = none)
    (hp : s.phase = p) (hg : phaseGuard s p = false) :
    engineEnabled p s (guardedData p n u s) = .refused (.guardFalse p) := by
  rw [engineEnabled_of hf hp, guardedData, hg, if_neg Bool.false_ne_true]

/-- Settles O28: each of the five guards, false. -/
theorem falseGuardsAreRefused : Obligations.FalseGuardsAreRefused := by
  intro s hf
  refine ⟨fun hp hr => ?_, fun hp hr => ?_, fun hp hr => ?_, fun hp hr => ?_, fun hp hr => ?_⟩
  · refine engineEnabled_guardedData_refused hf hp ?_
    rcases hr with hr | hr <;> simp [phaseGuard, hr]
  · exact engineEnabled_guardedData_refused hf hp (decide_eq_false (by omega))
  · exact engineEnabled_guardedData_refused hf hp (decide_eq_false (by omega))
  · exact engineEnabled_guardedData_refused hf hp (decide_eq_false (by omega))
  · exact (engineEnabled_of hf hp _).trans (if_neg (by simpa [phaseGuard] using hr))

theorem admitted_eq_false {s : State} {n : Nat}
    (h : (∃ k < n, readable s.config (portAddr s.config s.rs k) = false) ∨
      ∃ k < 2 * n, writable s.config (portAddr s.config s.wd k) = false) : admitted s n = false := by
  rw [← Bool.not_eq_true, admitted_iff]
  rintro ⟨hr, hw⟩
  rcases h with ⟨k, hk, h⟩ | ⟨k, hk, h⟩
  · simp [hr k hk] at h
  · simp [hw k hk] at h

theorem admitted_zero (s : State) : admitted s 0 = true := by
  simp [admitted_iff]

/-- A STUCK engine's turn answers the same state (60_exceptions.md R163; log 7). -/
theorem engineTurn_stuck {s : State} (hf : s.fault = none) (hg : phaseGuard s s.phase = true)
    (ha : admitted s (phaseBytes s s.phase) = false) : engineTurn s = .next s := by
  have hwait : ∀ u, engineEnabled s.phase s (guardedData s.phase (phaseBytes s s.phase) u s) = .next s :=
    fun u => (engineEnabled_of hf rfl _).trans (guardedData_stuck hg ha)
  have hzero : phaseBytes s s.phase ≠ 0 := fun h0 => by simp [h0, admitted_zero] at ha
  unfold engineTurn
  rw [engineInstr_eq]
  cases hp : s.phase with
  | idle => simp [hp, phaseBytes] at hzero
  | finish => simp [hp, phaseBytes] at hzero
  | rsvd7 => simp [hp, phaseBytes] at hzero
  | _ =>
    rw [hp] at hwait
    exact hwait _

/-- Settles O29: an event that is not admitted makes the engine STUCK. -/
theorem stuckEngineWaits : Obligations.StuckEngineWaits := by
  intro s hf hg h
  have ha := admitted_eq_false h
  refine ⟨engineTurn_stuck hf hg ha, fun ht hh => ?_⟩
  simp [nextTurn, ht, hh, engineStuck, ha]

/-- Settles O25: the IDLE step, enabled in its phase, does nothing. -/
theorem idleKeepsEverything : Obligations.IdleKeepsEverything := by
  intro s hf hp
  exact ⟨rfl, engineEnabled_of hf hp _⟩

/-! ## The frame of every engine step -/

section
variable {s t : State} (h : engineTurn s = .next t)
include h

/-- No engine step touches the arguments, the job or the host's side (10_state.md R25 to R27). -/
theorem engineTurn_keeps_arguments :
    t.src = s.src ∧ t.dst = s.dst ∧ t.len = s.len ∧ t.job = s.job ∧ t.fault = s.fault ∧ t.config = s.config ∧
      t.rdata = s.rdata ∧ t.hostProgram = s.hostProgram ∧ t.temps = s.temps ∧ t.turns = s.turns := by
  obtain ⟨-, ⟨rfl, -⟩ | ⟨-, -, rfl⟩ | ⟨b, -, -, -, rfl⟩ | ⟨-, -, -, -, rfl⟩ | ⟨-, -, rfl⟩⟩ := engineTurn_cases h
  all_goals exact ⟨rfl, rfl, rfl, rfl, rfl, rfl, rfl, rfl, rfl, rfl⟩

/-- Only FINISH writes DONE (10_state.md R24). -/
theorem engineTurn_keeps_done (hp : s.phase ≠ .finish) : t.done = s.done := by
  obtain ⟨-, ⟨rfl, -⟩ | ⟨-, -, rfl⟩ | ⟨b, -, -, -, rfl⟩ | ⟨-, -, -, -, rfl⟩ | ⟨hfin, -, -⟩⟩ := engineTurn_cases h
  case inr.inr.inr.inr => exact absurd hfin hp
  all_goals rfl

/-- Only REM and FINISH write SCALAR and CHARS (10_state.md R33). -/
theorem engineTurn_keeps_scalar_chars (hrem : s.phase ≠ .rem) (hfin : s.phase ≠ .finish) :
    t.scalar = s.scalar ∧ t.chars = s.chars := by
  obtain ⟨-, ⟨rfl, -⟩ | ⟨-, -, rfl⟩ | ⟨b, -, -, -, rfl⟩ | ⟨hp, -⟩ | ⟨hp, -⟩⟩ := engineTurn_cases h
  case inr.inr.inr.inl => exact absurd hp hrem
  case inr.inr.inr.inr => exact absurd hp hfin
  all_goals exact ⟨rfl, rfl⟩

end

theorem phase_ne_of_engineInstr_ne {s : State} {p : Phase} (h : engineInstr s ≠ decodePhase p.code) :
    s.phase ≠ p := by
  rintro rfl
  exact h rfl

/-- Settles O39: the operation is the one PHASE selects, so its effect is the engine's turn. -/
theorem engineStepsKeepTheArguments : Obligations.EngineStepsKeepTheArguments := by
  intro i s t hi h
  obtain rfl := eq_engineInstr_of_next hi h
  obtain ⟨hsrc, hdst, hlen, hjob, hfault, hconfig, hrdata, hprog, htemps, hturns⟩ := engineTurn_keeps_arguments h
  refine ⟨hsrc, hdst, hlen, hjob, hfault, hconfig, hrdata, hprog, htemps, hturns, fun hfin => ?_, fun hrem hfin => ?_⟩
  · have hp : s.phase ≠ .finish := phase_ne_of_engineInstr_ne hfin
    obtain ⟨hse, hde⟩ := engineTurn_ends h hp
    exact ⟨hse, hde, engineTurn_keeps_done h hp⟩
  · exact engineTurn_keeps_scalar_chars h (phase_ne_of_engineInstr_ne hrem) (phase_ne_of_engineInstr_ne hfin)

end Sys2Proof.Machine
end

section
/-! The host's turn: its register lines and wait lines, its accesses to data memory, and START (30_encoding.md R60, R71,
R72; 70_reset_and_hazards.md R187; 44_entry_and_host.md R131, R141). -/

namespace Sys2Proof.Machine

/-! ## The step runs the decoded operation -/

/-- A literal, or the name of an earlier read, is resolved to its value (30_encoding.md R71). -/
theorem resolve_of_denotes {s : State} {val : HostVal} {v : Word} (h : Denotes s val v) : resolve s val = .ok v := by
  rcases h with rfl | ⟨k, rfl, hk⟩
  · rfl
  · simp only [resolve, hk]

theorem resolve_temp_error {s : State} {k : Nat} (h : lookupTemp k s.temps = none) :
    resolve s (.temp k) = .error k := by
  simp only [resolve, h]

/-- A register line whose value is known runs the operation of its descriptor. -/
theorem hostLine_reg {s : State} {val : HostVal} {v : Word} (h : resolve s val = .ok v) (desc : BitVec 6)
    (dest : Option Nat) : hostLine (.reg desc val dest) s =
      andThen (exec (decodeHost desc v) s) (if descWrite desc then id else bindRead dest) := by
  simp only [hostLine, h, hostAccess]

theorem hostLine_reg_unbound {s : State} {k : Nat} (hf : s.fault = none) (h : lookupTemp k s.temps = none)
    (desc : BitVec 6) (dest : Option Nat) : hostLine (.reg desc (.temp k) dest) s = .refused (.unboundTemp k) := by
  simp only [hostLine, resolve_temp_error h, hostEnabled_of_none hf]

/-- Settles O6: the host's turn is its line, and a register line resolves its value first. -/
theorem stepRunsTheHostLine : Obligations.StepRunsTheHostLine := by
  intro s desc val dest rest hn hp
  rw [step_eq_hostLine hn hp]
  refine ⟨fun v hv => ⟨decodeHost_wellFormed desc v, ?_⟩, ?_⟩
  · have hres : resolve { popTurn s with hostProgram := rest } val = .ok v :=
      resolve_of_denotes (hv : Denotes { popTurn s with hostProgram := rest } val v)
    exact hostLine_reg hres desc dest
  · rintro k rfl hk hf
    exact hostLine_reg_unbound (s := { popTurn s with hostProgram := rest }) hf hk desc dest

/-- Settles O7: the engine's turn runs the decoded PHASE code. -/
theorem stepRunsThePhase : Obligations.StepRunsThePhase := by
  intro s hn
  exact ⟨decodePhase_wellFormed _, step_eq_engineTurn_popTurn hn⟩

/-- A PHASE code's operation is the one the phase of that code selects. -/
theorem decodePhase_code_ofCode (code : BitVec 3) : decodePhase (Phase.ofCode code).code = decodePhase code := by
  revert code
  decide

/-- Settles O8: the placed turn comes first, and the placed line or phase is what it finds. -/
theorem fetchWordRunsNext : Obligations.FetchWordRunsNext := by
  intro s w
  refine ⟨fun _ => ?_, fun _ => ⟨smallestCount (Phase.ofCode (BitVec.ofNat 3 w)), ?_⟩⟩
  · have hline : step (s.withFetchWord 8 w) = hostLine (.reg (BitVec.ofNat 6 w) (.lit 0) none) s := rfl
    exact hline.trans (hostLine_reg rfl _ _)
  · rw [← decodePhase_code_ofCode]
    rfl

/-! ## The STATUS word and the wait lines -/

/-- With DONE only while idle, the STATUS word has one of three values (10_state.md R24). -/
theorem statusWord_cases {s : State} (h : s.done = true → s.phase = .idle) :
    statusWord s = 0 ∨ statusWord s = 1 ∨ statusWord s = 2 := by
  unfold statusWord
  cases hd : s.done with
  | true =>
    have hb : busy s = false := by simp [busy, h hd]
    exact .inr (.inr (by rw [hb]; rfl))
  | false =>
    cases busy s with
    | false => exact .inl rfl
    | true => exact .inr (.inl rfl)

/-- Settles O11: the STATUS word, bit by bit. -/
theorem rdStatusReturnsDoneAndBusy : Obligations.RdStatusReturnsDoneAndBusy := by
  refine ⟨rfl, fun s hf => ⟨statusWord s, returnData_of_none hf _, statusWord_getLsbD s 0, statusWord_getLsbD s 1,
    fun i hi => ?_, statusWord_cases⟩⟩
  rw [statusWord_getLsbD, if_neg (by omega), if_neg (by omega)]

theorem hostLine_waitDone {s : State} (hf : s.fault = none) (dest : Option Nat) :
    hostLine (.waitDone dest) s = .next { s with
      rdata := statusWord s, temps := namesWith dest (statusWord s) s.temps
      hostProgram := if s.done then s.hostProgram else .waitDone dest :: s.hostProgram } := by
  simp only [hostLine, hostAccess_status hf, andThen, repeatUnless_eq, statusWord_getLsbD]
  rfl

theorem hostLine_waitIdle {s : State} (hf : s.fault = none) (dest : Option Nat) :
    hostLine (.waitIdle dest) s = .next { s with
      rdata := statusWord s, temps := namesWith dest (statusWord s) s.temps
      hostProgram := if s.phase = .idle then s.hostProgram else .waitIdle dest :: s.hostProgram } := by
  simp only [hostLine, hostAccess_status hf, andThen, repeatUnless_eq, statusWord_getLsbD]
  simp [busy]

/-- Settles O9: a wait line is a STATUS read that puts itself back while the bit is not as it waits for. -/
theorem waitLinesRepeat : Obligations.WaitLinesRepeat := by
  intro s dest hf
  exact ⟨⟨_, hostLine_waitDone hf dest, rfl, rfl, rfl, rfl, statusWord_getLsbD s 1, rfl, rfl, rfl⟩,
    ⟨_, hostLine_waitIdle hf dest, rfl, rfl, rfl, rfl, statusWord_getLsbD s 0, rfl, rfl, rfl⟩⟩

/-! ## STATUS around FINISH -/

theorem statusWord_busy {s : State} (hp : s.phase ≠ .idle) (hd : s.done = false) : statusWord s = 1 := by
  unfold statusWord
  rw [hd, busy_iff.mpr hp]
  rfl

theorem statusWord_done {s : State} (hp : s.phase = .idle) (hd : s.done = true) : statusWord s = 2 := by
  have hb : busy s = false := by simp [busy, hp]
  unfold statusWord
  rw [hd, hb]
  rfl

theorem nextTurn_of_turns {s : State} {t : Turn} {ts : List Turn} (h : s.turns = t :: ts) : nextTurn s = t := by
  simp only [nextTurn, h]

/-- `s` after the host's turn with a STATUS read named `k` as its last line. -/
def afterStatusRead (k : Nat) (s : State) : State :=
  { popTurn s with hostProgram := [], rdata := statusWord s, temps := (k, statusWord s) :: s.temps }

theorem step_statusRead {s : State} {k : Nat} (hf : s.fault = none) (hn : nextTurn s = .host)
    (hprog : s.hostProgram = [.reg 0x01#6 (.lit 0) (some k)]) : step s = .next (afterStatusRead k s) :=
  (step_eq_hostLine hn hprog).trans (hostAccess_status (s := { popTurn s with hostProgram := [] }) hf (some k))

theorem step_finish {s : State} (hf : s.fault = none) (hn : nextTurn s = .engine) (hp : s.phase = .finish)
    (hr : s.rem.toNat = 0) : step s = .next (finishJob (popTurn s)) :=
  (step_eq_engineTurn_popTurn hn).trans (engineTurn_finish hf hp hr)

theorem lookupTemp_cons_self (k : Nat) (v : Word) (ts : List (Nat × Word)) :
    lookupTemp k ((k, v) :: ts) = some v :=
  if_pos rfl

/-- Settles O37: the read finds the state before FINISH, or the one after it. -/
theorem statusReadAroundFinishHasBothOrders : Obligations.StatusReadAroundFinishHasBothOrders := by
  intro s k hf hp hd hr hprog
  constructor
  · intro ht
    have hturns : (afterStatusRead k s).turns = [.engine] := congrArg List.tail ht
    have hfin : step (afterStatusRead k s) = .next (finishJob (popTurn (afterStatusRead k s))) :=
      step_finish hf (nextTurn_of_turns hturns) hp hr
    have hword : statusWord s = 1 := statusWord_busy (by simp [hp]) hd
    refine ⟨_, (runSteps_succ (step_statusRead hf (nextTurn_of_turns ht) hprog) 1).trans (runSteps_succ hfin 0), ?_,
      rfl, rfl⟩
    exact (lookupTemp_cons_self k _ _).trans (congrArg some hword)
  · intro ht
    have hturns : (finishJob (popTurn s)).turns = [.host] := congrArg List.tail ht
    have hread : step (finishJob (popTurn s)) = .next (afterStatusRead k (finishJob (popTurn s))) :=
      step_statusRead hf (nextTurn_of_turns hturns) hprog
    have hword : statusWord (finishJob (popTurn s)) = 2 := statusWord_done rfl rfl
    refine ⟨_, (runSteps_succ (step_finish hf (nextTurn_of_turns ht) hp hr) 1).trans (runSteps_succ hread 0), ?_,
      rfl, rfl⟩
    exact (lookupTemp_cons_self k _ _).trans (congrArg some hword)

/-! ## START -/

/-- A write of CTRL is a START exactly when bit 0 is 1 and the block is idle (44_entry_and_host.md R141). -/
theorem exec_wrCtrl_of_none {s : State} (hf : s.fault = none) (w : Word) :
    exec (.wrCtrl w) s = .next (if w.getLsbD 0 = true ∧ s.phase = .idle then start s else s) := by
  have hexec : exec (.wrCtrl w) s = .next (if startStrobe w && !busy s then start s else s) :=
    hostEnabled_of_none hf _
  rw [hexec]
  congr 2
  simp [startStrobe, busy]

/-- What a START does, precondition by precondition (44_entry_and_host.md R131, 60_exceptions.md R161, R166 (a)). -/
theorem start_eq (s : State) :
    start s = if ¬(noWrap s.config s.src s.dst s.len = true) then raiseUB (.precondWrap s.src s.dst s.len) s
      else if ¬(noOverlap s.src s.dst s.len = true) then raiseUB (.precondOverlap s.src s.dst s.len) s
      else startJob s := by
  unfold start preconditionFailure
  cases noWrap s.config s.src s.dst s.len <;> cases noOverlap s.src s.dst s.len <;> rfl

/-- Registers of ADDR_W bits are loaded as they stand. -/
theorem RegistersFit.startJob_eq {s : State} (h : RegistersFit s) :
    startJob s = { s with
      job := some { src := s.src, dst := s.dst, len := s.len, memAtStart := s.mem }
      rs := s.src, wd := s.dst, rem := s.len, done := false, phase := entryPhase s.config s.len.toNat } := by
  rw [startJob, truncAddr_of_lt h.src, truncAddr_of_lt h.dst, truncAddr_of_lt h.len]

/-- Settles O18: the START command branch by branch, its job keeping the memory it starts in. -/
theorem wrCtrlStartsAJobOrNothing : Obligations.WrCtrlStartsAJobOrNothing := by
  intro s w hf hfit
  refine ⟨rfl, s.mem, ?_⟩
  rw [exec_wrCtrl_of_none hf, start_eq, hfit.startJob_eq]
  simp only [noWrap_iff, noOverlap_iff]
  rfl

/-! ## Register accesses and memory -/

@[simp] theorem start_scalar (s : State) : (start s).scalar = s.scalar := by
  rcases start_cases s with ⟨r, -, h⟩ | ⟨-, h⟩ <;> simp [h]

@[simp] theorem start_chars (s : State) : (start s).chars = s.chars := by
  rcases start_cases s with ⟨r, -, h⟩ | ⟨-, h⟩ <;> simp [h]

/-- Settles O38: an access returns read data, takes an argument, or runs START, which only WR_CTRL does. -/
theorem hostAccessesTouchNoMemory : Obligations.HostAccessesTouchNoMemory := by
  intro i s t hi h
  obtain ⟨-, rfl | ⟨v, rfl⟩ | ⟨-, w, rfl | rfl | rfl⟩ | ⟨-, ⟨w, rfl⟩, rfl⟩⟩ := hostExec_cases hi h
  case inr.inr.inr =>
    exact ⟨start_mem s, start_history s, start_srcEnd s, start_dstEnd s, start_scalar s, start_chars s, start_config s,
      fun hne => absurd rfl (hne w)⟩
  all_goals exact ⟨rfl, rfl, rfl, rfl, rfl, rfl, rfl, fun _ => ⟨rfl, rfl, rfl, rfl, rfl, rfl, rfl⟩⟩

/-! ## The host's accesses to data memory -/

section
variable {s : State} {a : Nat} (hf : s.fault = none)
include hf

theorem hostMemRead_races {dest : Option Nat} (hr : races s a .read = true) :
    hostLine (.memRead a dest) s = .next (raiseUB (.race a .read) s) :=
  (hostEnabled_of_none hf _).trans (if_pos hr)

theorem hostMemWrite_races {b : Byte} (hr : races s a .write = true) :
    hostLine (.memWrite a b) s = .next (raiseUB (.race a .write) s) :=
  (hostEnabled_of_none hf _).trans (if_pos hr)

/-- A read that does not race binds the byte, or is refused (log 17, log 19). -/
theorem hostMemRead_quiet {dest : Option Nat} (hr : races s a .read = false) :
    hostLine (.memRead a dest) s = if readable s.config a then
      .next { s with temps := namesWith dest ((s.mem.read a).setWidth 64) s.temps }
      else .refused (.hostMemory a .read) := by
  rw [← bindTemp_eq]
  exact (hostEnabled_of_none hf _).trans (if_neg (by rw [hr]; exact Bool.false_ne_true))

/-- A write that does not race changes the byte, or is refused (log 19). -/
theorem hostMemWrite_quiet {b : Byte} (hr : races s a .write = false) :
    hostLine (.memWrite a b) s = if writable s.config a then .next { s with mem := s.mem.write a b }
      else .refused (.hostMemory a .write) :=
  (hostEnabled_of_none hf _).trans (if_neg (by rw [hr]; exact Bool.false_ne_true))

end

/-- Settles O31: an access to a running job's buffers races, but for a read of its source. -/
theorem hostAccessToRunningBuffersRaces : Obligations.HostAccessToRunningBuffersRaces := by
  intro s j a b dest hf hp hj
  refine ⟨fun hd => hostMemRead_races hf ((races_of_job hp hj a .read).mpr (.inl hd)), fun h => ?_,
    fun _ hd hread => ?_⟩
  · exact hostMemWrite_races hf ((races_of_job hp hj a .write).mpr (h.imp_right fun hs => ⟨rfl, hs⟩))
  · have hr : races s a .read = false := by
      rw [← Bool.not_eq_true, races_of_job hp hj]
      simpa using hd
    rw [hostMemRead_quiet hf hr, if_pos hread]

/-- An access while idle, or outside both buffers of the job, does not race (70_reset_and_hazards.md R187). -/
theorem races_eq_false {s : State} {a : Nat}
    (h : s.phase = .idle ∨ ∀ j, s.job = some j →
      ¬(j.dst.toNat ≤ a ∧ a < j.dst.toNat + 2 * j.len.toNat) ∧ ¬(j.src.toNat ≤ a ∧ a < j.src.toNat + j.len.toNat))
    (k : AccessKind) : races s a k = false := by
  by_cases hp : s.phase = .idle
  · exact races_of_idle hp a k
  · cases hj : s.job with
    | none => simp [races, hj]
    | some j =>
      obtain ⟨hd, hs⟩ := h.resolve_left hp j hj
      rw [← Bool.not_eq_true, races_of_job hp hj]
      rintro (h | ⟨-, h⟩)
      · exact hd h
      · exact hs h

/-- Settles O32: an access that does not race has its effect where the platform admits it, and is refused elsewhere. -/
theorem hostAccessOutsideBuffersCompletes : Obligations.HostAccessOutsideBuffersCompletes := by
  intro s a b k hf hm h
  rw [hostMemRead_quiet hf (races_eq_false h .read), hostMemWrite_quiet hf (races_eq_false h .write)]
  refine ⟨fun hr => if_pos hr, fun hw => ⟨_, if_pos hw, Memory.read_write hm a b, rfl⟩, fun hr => ?_, fun hw => ?_⟩
  · rw [hr, if_neg Bool.false_ne_true]
  · rw [hw, if_neg Bool.false_ne_true]

end Sys2Proof.Machine
end

section
/-! The reset of the block and a set FAULT (70_reset_and_hazards.md R180 to R183; 60_exceptions.md R160, R166 (c)). -/

namespace Sys2Proof.Machine

/-! ## A reset turn -/

/-- Settles O33: the reset state is written out in `State.resetWith`. -/
theorem resetStateHasTheSpecValues : Obligations.ResetStateHasTheSpecValues :=
  fun c => ⟨State.resetWith c, rfl, rfl, rfl, rfl, rfl, rfl, rfl, rfl, rfl, rfl, rfl, rfl, rfl, rfl⟩

theorem step_reset {s : State} (hn : nextTurn s = .reset) : step s = .next (resetBlock (popTurn s)) := by
  simp only [step, hn, takeTurn]

theorem step_resetLost {s : State} (hn : nextTurn s = .resetLost) :
    step s = .next (resetBlock (loseAccess (popTurn s))) := by
  simp only [step, hn, takeTurn]

/-- A reset turn resets the block, whatever becomes of the host's access in its cycle (70_reset_and_hazards.md R180). -/
theorem step_resets {s : State} (hn : nextTurn s = .reset ∨ nextTurn s = .resetLost) :
    ∃ t, step s = .next t ∧ SameBlock (resetBlock (popTurn s)) t := by
  rcases hn with hn | hn
  · exact ⟨_, step_reset hn, .refl _⟩
  · exact ⟨_, step_resetLost hn, sameBlock_resetBlock (sameBlock_loseAccess _)⟩

theorem SameBlock.mem {u t : State} (h : SameBlock u t) : t.mem = u.mem := (congrArg State.mem h).trans rfl
theorem SameBlock.srcEnd {u t : State} (h : SameBlock u t) : t.srcEnd = u.srcEnd := (congrArg State.srcEnd h).trans rfl
theorem SameBlock.dstEnd {u t : State} (h : SameBlock u t) : t.dstEnd = u.dstEnd := (congrArg State.dstEnd h).trans rfl

/-- Settles O34: the state after a reset turn is `resetBlock` but for the host's side, which only a lost access
touches. -/
theorem resetTurnResetsTheBlock : Obligations.ResetTurnResetsTheBlock := by
  intro s hn
  obtain ⟨t, ht, hsame⟩ := step_resets hn
  have hidle : s.phase = .idle → t.mem = s.mem := fun hp => hsame.mem.trans (resetMemory_idle (s := popTurn s) hp)
  have hhost : nextTurn s = .reset → t.hostProgram = s.hostProgram ∧ t.temps = s.temps ∧ t.rdata = s.rdata := by
    intro hr
    cases (step_reset hr).symm.trans ht
    exact ⟨rfl, rfl, rfl⟩
  refine ⟨t, ht, ?_⟩
  rw [show t = withHostOf t (resetBlock (popTurn s)) from hsame] at hidle hhost ⊢
  exact ⟨rfl, rfl, rfl, rfl, rfl, rfl, rfl, rfl, rfl, rfl, rfl, rfl, rfl, hidle, hhost⟩

/-! ## An abandoned job -/

/-- A settled byte is the one from before the job, or the character of its place (70_reset_and_hazards.md R183). -/
theorem abandonedByte_cases (j : Job) (draw i : Nat) :
    abandonedByte j draw i = j.memAtStart.read (j.dst.toNat + i) ∨ abandonedByte j draw i = jobOutputByte j i := by
  unfold abandonedByte
  split_ifs
  · exact .inr rfl
  · exact .inl rfl

theorem jobOutputByte_even (j : Job) (i : Nat) :
    jobOutputByte j (2 * i) = digit ((j.memAtStart.read (j.src.toNat + i)).extractLsb' 4 4) := by
  rw [jobOutputByte, if_pos (by omega), Nat.mul_div_cancel_left i Nat.two_pos]
  rfl

theorem jobOutputByte_odd (j : Job) (i : Nat) :
    jobOutputByte j (2 * i + 1) = digit ((j.memAtStart.read (j.src.toNat + i)).extractLsb' 0 4) := by
  rw [jobOutputByte, if_neg (by omega), show (2 * i + 1) / 2 = i by omega]
  rfl

/-- Settles O35: the reset settles every byte of the abandoned job's destination, and no other. -/
theorem resetDuringAJobLeavesOldOrNewBytes : Obligations.ResetDuringAJobLeavesOldOrNewBytes := by
  intro s j hn hp hj hm
  obtain ⟨t, ht, hsame⟩ := step_resets hn
  have hmem : t.mem = abandonBytes j s.draws (2 * j.len.toNat) s.mem :=
    hsame.mem.trans (resetMemory_busy (s := popTurn s) hp hj)
  obtain ⟨hin, hout⟩ := read_abandonBytes j s.draws (2 * j.len.toNat) hm
  refine ⟨t, ht, hsame.srcEnd, hsame.dstEnd, fun i hi => ⟨?_, ?_⟩, fun a ha => ?_⟩
  · rw [hmem, hin _ (by omega), ← jobOutputByte_even]
    exact abandonedByte_cases j s.draws _
  · rw [hmem, Nat.add_assoc, hin _ (by omega), ← jobOutputByte_odd]
    exact abandonedByte_cases j s.draws _
  · rw [hmem, hout a ha]

/-! ## A lost access -/

/-- Losing an access touches the host's program and names only. -/
theorem loseAccess_hostSide (s : State) :
    ∃ p tm, loseAccess s = { s with hostProgram := p, temps := tm } := by
  unfold loseAccess
  split
  · split
    · exact ⟨_, s.temps, rfl⟩
    · exact ⟨_, _, bindTemp_eq _ _ _⟩
  · exact ⟨_, _, bindTemp_eq _ _ _⟩
  · exact ⟨_, s.temps, rfl⟩
  · exact ⟨s.hostProgram, s.temps, rfl⟩

section
variable {s : State} {rest : List HostOp} (hf : s.fault = none)
include hf

theorem loseAccess_reg {desc : BitVec 6} {val : HostVal} {dest : Option Nat}
    (hp : s.hostProgram = .reg desc val dest :: rest) :
    loseAccess s = { s with
      hostProgram := rest
      temps := if desc.getLsbD 5 then s.temps else namesWith dest (Config.lostRead s.draws) s.temps } := by
  simp only [loseAccess, hf, hp, bindTemp_eq, descWrite]
  split <;> rfl

theorem loseAccess_windowRead {addr width : Nat} {dest : Option Nat}
    (hp : s.hostProgram = .windowRead addr width dest :: rest) :
    loseAccess s = { s with
      hostProgram := rest, temps := namesWith dest (Config.lostRead s.draws) s.temps } := by
  simp only [loseAccess, hf, hp, bindTemp_eq]

theorem loseAccess_windowWrite {addr : Nat} {data : List Byte}
    (hp : s.hostProgram = .windowWrite addr data :: rest) : loseAccess s = { s with hostProgram := rest } := by
  simp only [loseAccess, hf, hp]

end

/-- The line is one register access, which a reset can make lost: a wait line reads again, and a memory line is no access
of the block (log 20). -/
def isLosable : HostOp → Bool
  | .reg _ _ _ => true
  | .windowRead _ _ _ => true
  | .windowWrite _ _ => true
  | .waitDone _ => false
  | .waitIdle _ => false
  | .memRead _ _ => false
  | .memWrite _ _ => false

theorem loseAccess_of_not_losable {s : State} {op : HostOp} {rest : List HostOp} (hp : s.hostProgram = op :: rest)
    (h : isLosable op = false) : loseAccess s = s := by
  cases op with
  | reg desc val dest => cases h
  | windowRead addr width dest => cases h
  | windowWrite addr data => cases h
  | _ => simp [loseAccess, hp]

/-- Settles O36: the block is reset as in any reset, and the host's side is what `loseAccess` leaves for the line. -/
theorem lostAccessLetsTheHostGoOn : Obligations.LostAccessLetsTheHostGoOn := by
  intro s op rest hn hf hp
  obtain ⟨p, tm, hlose⟩ := loseAccess_hostSide (popTurn s)
  refine ⟨resetBlock (loseAccess (popTurn s)), Config.lostRead s.draws, step_resetLost hn, rfl, rfl, rfl, rfl, rfl,
    by rw [hlose]; exact hf, by rw [hlose]; rfl, by rw [hlose]; rfl, ?_⟩
  rw [resetBlock_hostProgram, resetBlock_temps]
  have hf : (popTurn s).fault = none := hf
  have hp : (popTurn s).hostProgram = op :: rest := hp
  cases op with
  | reg desc val dest => rw [loseAccess_reg hf hp]; exact ⟨rfl, rfl⟩
  | windowRead addr width dest => rw [loseAccess_windowRead hf hp]; exact ⟨rfl, rfl⟩
  | windowWrite addr data => rw [loseAccess_windowWrite hf hp]; exact ⟨rfl, rfl⟩
  | waitDone dest => rw [loseAccess_of_not_losable hp rfl]; exact ⟨hp, rfl⟩
  | waitIdle dest => rw [loseAccess_of_not_losable hp rfl]; exact ⟨hp, rfl⟩
  | memRead a dest => rw [loseAccess_of_not_losable hp rfl]; exact ⟨hp, rfl⟩
  | memWrite a b => rw [loseAccess_of_not_losable hp rfl]; exact ⟨hp, rfl⟩

/-! ## FAULT -/

section
variable {s : State} {r : UB} (h : s.fault = some r)
include h

theorem hostEnabled_of_fault (k : Host.Outcome State Fault Refusal) : hostEnabled s k = .fault (.ub r) := by
  simp only [hostEnabled, h]

theorem engineEnabled_of_fault (p : Phase) (k : Host.Outcome State Fault Refusal) :
    engineEnabled p s k = .fault (.ub r) := by
  simp only [engineEnabled, h]

/-- Every meaning looks at FAULT first (60_exceptions.md R160). -/
theorem exec_of_fault (i : Instr) : exec i s = .fault (.ub r) := by
  cases i with
  | idle => exact engineEnabled_of_fault h .idle _
  | fast1 => exact engineEnabled_of_fault h .fast1 _
  | bulk32 => exact engineEnabled_of_fault h .bulk32 _
  | bulk16 => exact engineEnabled_of_fault h .bulk16 _
  | bulk8 => exact engineEnabled_of_fault h .bulk8 _
  | rem => exact engineEnabled_of_fault h .rem _
  | finish => exact engineEnabled_of_fault h .finish _
  | rsvd7 => exact engineEnabled_of_fault h .rsvd7 _
  | _ => exact hostEnabled_of_fault h _

theorem hostAccess_of_fault (desc : BitVec 6) (w : Word) (dest : Option Nat) :
    hostAccess desc w dest s = .fault (.ub r) := by
  rw [hostAccess, exec_of_fault h]
  rfl

theorem hostLine_of_fault (op : HostOp) : hostLine op s = .fault (.ub r) := by
  cases op with
  | reg desc val dest =>
    simp only [hostLine]
    split
    · exact hostAccess_of_fault h _ _ _
    · exact hostEnabled_of_fault h _
  | windowRead addr width dest =>
    simp only [hostLine]
    split
    · exact hostAccess_of_fault h _ _ _
    · exact hostEnabled_of_fault h _
  | windowWrite addr data =>
    simp only [hostLine]
    split
    · exact hostAccess_of_fault h _ _ _
    · exact hostEnabled_of_fault h _
  | waitDone dest =>
    simp only [hostLine, hostAccess_of_fault h]
    rfl
  | waitIdle dest =>
    simp only [hostLine, hostAccess_of_fault h]
    rfl
  | memRead a dest => exact hostEnabled_of_fault h _
  | memWrite a b => exact hostEnabled_of_fault h _

theorem hostTurn_of_fault : hostTurn s = .fault (.ub r) := by
  unfold hostTurn
  split
  · exact hostEnabled_of_fault h _
  · exact hostLine_of_fault (by exact h) _

end

/-- Settles O30: every meaning and every host line looks at FAULT first, and only a reset turn does not. -/
theorem setFaultStopsEveryAgent : Obligations.SetFaultStopsEveryAgent := by
  intro s r h
  have hpop : (popTurn s).fault = some r := h
  have hhost : nextTurn s = .host → step s = .fault (.ub r) := fun hn => by
    simp only [step, hn, takeTurn, hostTurn_of_fault hpop]
  have hengine : nextTurn s = .engine → step s = .fault (.ub r) := fun hn => by
    rw [step_eq_engineTurn_popTurn hn]
    exact exec_of_fault hpop _
  refine ⟨exec_of_fault h, hhost, hengine, fun t ht => ?_, fun ⟨_, _, hnone⟩ => by simp [h] at hnone⟩
  cases hn : nextTurn s with
  | host => cases (hhost hn).symm.trans ht
  | engine => cases (hengine hn).symm.trans ht
  | reset =>
    cases (step_reset hn).symm.trans ht
    exact ⟨h, rfl, rfl, rfl, rfl⟩
  | resetLost =>
    have hlost := step_resetLost hn
    rw [loseAccess_of_fault hpop] at hlost
    cases hlost.symm.trans ht
    exact ⟨h, rfl, rfl, rfl, rfl⟩

end Sys2Proof.Machine
end

section
/-! The tables and the transform (40_tables.md sections 1 and 2, 41_bulk.md R94, 95_test_vectors.md L1.1). -/

namespace Sys2Proof.Machine

/-- Settles O52: LUT16 entry by entry. -/
theorem digitHasItsClosedForm : Obligations.DigitHasItsClosedForm := by
  unfold Obligations.DigitHasItsClosedForm
  decide

theorem highNibble_eq (b : Byte) : (b >>> 4).setWidth 4 = b.extractLsb' 4 4 := by
  apply BitVec.eq_of_toNat_eq
  simp

theorem lowNibble_eq (b : Byte) : (b &&& 0xF).setWidth 4 = b.extractLsb' 0 4 := by
  revert b
  decide

/-- Settles O53: a LUT256 entry is the low nibble's character joined above the high nibble's. -/
theorem pairPacksTheTwoDigits : Obligations.PairPacksTheTwoDigits := by
  intro b
  rw [highNibble_eq, lowNibble_eq]
  exact ⟨BitVec.extractLsb'_append_eq_right, BitVec.extractLsb'_append_eq_left⟩

/-- Settles O54: the transform writes byte by byte. -/
theorem transformIsBatchIndependent : Obligations.TransformIsBatchIndependent := by
  intro x y
  induction x with
  | nil => rfl
  | cons b bs ih => simp only [List.cons_append, xform, ih]

/-- No two nibbles have the same character (40_tables.md R80). -/
theorem digit_injective : Function.Injective digit := by
  unfold Function.Injective
  decide

/-- A byte is its two nibbles (41_bulk.md R90). -/
theorem split_append (b : Byte) : (split b).1 ++ (split b).2 = b := by
  revert b
  decide

theorem laneChars_injective : Function.Injective laneChars := by
  intro b b' h
  obtain ⟨hhigh, hlow⟩ := Prod.mk.inj h
  rw [← split_append b, ← split_append b', digit_injective hhigh, digit_injective hlow]

/-- Settles O55: the first two characters give the first byte back, since no two nibbles have the same character. -/
theorem transformLosesNothing : Obligations.TransformLosesNothing := by
  intro x
  induction x with
  | nil =>
    rintro (_ | ⟨b', bs'⟩) h
    · rfl
    · cases h
  | cons b bs ih =>
    rintro (_ | ⟨b', bs'⟩) h
    · cases h
    · simp only [xform, List.cons.injEq] at h
      obtain ⟨hhigh, hlow, hrest⟩ := h
      rw [laneChars_injective (Prod.ext hhigh hlow), ih bs' hrest]

end Sys2Proof.Machine
end
